-- ==== Sys2Proof/Word.lean ====
section
/-! DEFINITION. The value types of the machine: the 9-bit ROM word, the operator index, and the elements of the
numeric carrier `V` (00_scope.md R6, R8). The operations on `V` are in Machine/Num.lean. -/

namespace Sys2Proof

/-- One word of the algorithm ROM: 9 bits, bit 0 the least significant (30_encoding.md R50, 00_scope.md R7). -/
abbrev RomWord := BitVec 9

/-- An operator index, a slot that exists: 0 is OP6, 5 is OP1 (00_scope.md R5, glossary). -/
abbrev OpIndex := Fin 6

/-- An expression that denotes one real number: how a finite value of the exact-real instance of `NUM` is written as plain
data (00_scope.md R8: `+`, `-`, `*`, `1/n`, `sin`, `PI` and the literals; log 2). A rational number is always the leaf `rat`;
the operations of Machine/Num.lean build a larger expression only for a number they cannot name so. The leaf `input k` is the
`k`-th real number that comes from outside the machine: it may be any real number, and nothing is known of it (log 28). -/
inductive Exact where
  | rat (q : Rat)
  | pi
  | input (k : Nat)
  | add (x y : Exact)
  | mul (x y : Exact)
  | sin (x : Exact)
deriving DecidableEq, Repr

/-- An element of the numeric carrier `V` (00_scope.md R6). The exact-real instance holds only `fin`. A floating instance
holds `fin (.rat q)` for the finite numbers of its format (`+0` is `fin (.rat 0)`), `negZero`, `inf` and `nan`
(40_advance_datapath.md R82, R83; log 4). -/
inductive Value where
  | fin (x : Exact)
  | negZero
  | inf (negative : Bool)
  | nan
deriving DecidableEq, Repr

/-- The literal `k` as an element of `V`, for a rational `k` that every instance represents (`0`, `1`, `2`). -/
def Value.lit (k : Rat) : Value := .fin (.rat k)

/-- `NUM`'s positive zero, the value every register of type `V` has at reset (10_state.md R25). -/
def Value.zero : Value := Value.lit 0

/-- An element of the exact-real instance: a real number (10_state.md R11, 60_exceptions.md R126). -/
def Value.isReal : Value → Bool
  | .fin _ => true
  | .negZero => false
  | .inf _ => false
  | .nan => false

end Sys2Proof
end

