-- ==== Sys2Proof/Config.lean ====
section
/-! DEFINITION. What an implementation fixes: the admitted instances of the parameter `NUM`, the two values of `MIX_MODE`,
the fixed parameters of 00_scope.md R5, and the free values (opaque constants, about which nothing can be proved). -/

namespace Sys2Proof

/-- The admitted instances of the parameter `NUM` (00_scope.md R6, 92_eei_decisions.md D1). -/
inductive NumKind where
  | exactReal
  | binary32
  | binary64
deriving DecidableEq, Repr

/-- The parameter `MIX_MODE` (00_scope.md R6, 92_eei_decisions.md D13). -/
inductive MixMode where
  | multiply
  | select
deriving DecidableEq, Repr

/-- A binary floating-point format: the digits of the significand and the exponents of the smallest and the largest normal
number (IEEE 754, from general knowledge: 93_implementation_defined.md G3; log 4). -/
structure FloatFormat where
  precision : Nat
  emin : Int
  emax : Int
deriving DecidableEq, Repr

/-- The format of a floating instance; the exact-real instance has none (00_scope.md R6). -/
def NumKind.format? : NumKind → Option FloatFormat
  | .exactReal => none
  | .binary32 => some { precision := 24, emin := -126, emax := 127 }
  | .binary64 => some { precision := 53, emin := -1022, emax := 1023 }

/-- `W_V`: the storage width in bits of one value of `V`, none for exact reals (00_scope.md R6). -/
def NumKind.width? : NumKind → Option Nat
  | .exactReal => none
  | .binary32 => some 32
  | .binary64 => some 64

/-- `N_OPS` (00_scope.md R5). -/
def nOps : Nat := 6

/-- `N_ALG` (00_scope.md R5). -/
def nAlg : Nat := 32

/-- The number of words of the algorithm ROM: 32 rows of 6 (20_memory.md R30). -/
def nRomWords : Nat := nAlg * nOps

/-- `COM_MAX` (00_scope.md R5). -/
def comMax : Nat := 5

/-- `K_MOD = 3.85` as the exact number (00_scope.md R5, 92_eei_decisions.md D18). -/
def kModExact : Rat := 77 / 20

/-- FREE VALUE. The platform's sine in a floating instance, of which the spec assumes "only that it depends on its argument
alone and returns a value in `[-1, 1]` for finite arguments" (93_implementation_defined.md U8). It gives a rational number and
the sign a zero result takes; Machine/Num.lean brings the number into `[-1, 1]` and into the format (log 5). -/
opaque Config.platformSin : NumKind → Value → Rat × Bool

/-- FREE VALUE. The whole part of the `k`-th real number that comes from outside the machine (00_scope.md R6: `V` is the real
numbers; log 28). -/
opaque Config.inputFloor : Nat → Int

/-- FREE VALUE. The binary digits behind the point of the `k`-th real number that comes from outside the machine: digit `i`
counts `1 / 2^(i+1)` (log 28). -/
opaque Config.inputDigit : Nat → Nat → Fin 2

end Sys2Proof
end

