-- ==== Sys2Proof/Machine/Enclosure.lean ====
section
/-! DEFINITION. The order of the exact-real instance of `NUM`, the mathematical order of the real numbers (00_scope.md R8): every
exact value is enclosed in rational intervals that shrink to it, and one value exceeds another when some pair of their intervals
lies apart (log 3; Laws/Enclosure.lean shows that this is the order of the reals). -/

namespace Sys2Proof.Machine

/-- The interval `[center - radius, center + radius]`. -/
structure Enclosure where
  center : Rat
  radius : Rat
deriving DecidableEq, Repr

/-- An interval for the sum of two numbers. -/
def encloseAdd (a b : Enclosure) : Enclosure := { center := a.center + b.center, radius := a.radius + b.radius }

/-- An interval for the product of two numbers. -/
def encloseMul (a b : Enclosure) : Enclosure :=
  { center := a.center * b.center
    radius := |a.center| * b.radius + |b.center| * a.radius + a.radius * b.radius }

/-- The first `n` terms of the alternating sum `1 - 1/3 + 1/5 - ...`. -/
def quarterPiSum : Nat → Rat
  | 0 => 0
  | n + 1 => quarterPiSum n + (-1) ^ n * (1 / (2 * (n : Rat) + 1))

/-- An interval for the circle constant, from `2 * n` terms of the sum. -/
def enclosePi (n : Nat) : Enclosure := { center := 4 * quarterPiSum (2 * n), radius := 4 / (4 * (n : Rat) + 1) }

/-- The term of degree `m` of the power series of the sine. -/
def sinTerm (c : Rat) (m : Nat) : Rat :=
  match m % 4 with
  | 1 => c ^ m / (m.factorial : Rat)
  | 3 => -(c ^ m / (m.factorial : Rat))
  | _ => 0

/-- The terms of degree below `n` of the power series of the sine. -/
def sinSum (c : Rat) : Nat → Rat
  | 0 => 0
  | n + 1 => sinSum c n + sinTerm c n

/-- An interval for the sine of a number: `[-1, 1]` until the series has enough terms for its remainder to be bounded. -/
def encloseSin (n : Nat) (a : Enclosure) : Enclosure :=
  if 2 * |a.center| ≤ (n : Rat) + 1 then
    { center := sinSum a.center n, radius := a.radius + |a.center| ^ n / (n.factorial : Rat) * 2 }
  else { center := 0, radius := 1 }

/-- The first `n` binary digits behind the point of an input, as a number. -/
def inputDigits (k : Nat) : Nat → Rat
  | 0 => 0
  | n + 1 => inputDigits k n + ((Config.inputDigit k n).val : Rat) * (1 / 2 ^ (n + 1))

/-- An interval for an input, from `n` of its digits. -/
def encloseInput (k n : Nat) : Enclosure :=
  { center := (Config.inputFloor k : Rat) + inputDigits k n, radius := 1 / 2 ^ n }

/-- The `n`-th interval for an exact value. -/
def enclose (n : Nat) : Exact → Enclosure
  | .rat q => { center := q, radius := 0 }
  | .pi => enclosePi n
  | .input k => encloseInput k n
  | .add x y => encloseAdd (enclose n x) (enclose n y)
  | .mul x y => encloseMul (enclose n x) (enclose n y)
  | .sin x => encloseSin n (enclose n x)

/-- The `n`-th intervals show that `x` exceeds `y`. -/
def exceedsAt (x y : Exact) (n : Nat) : Bool :=
  decide ((enclose n y).center + (enclose n y).radius < (enclose n x).center - (enclose n x).radius)

/-- The search, from the `n`-th intervals on, for intervals that show that `x` exceeds `y`: `some ()` when there are such, else
`none`, the value of a search that does not end. -/
def exceedsFrom (x y : Exact) (n : Nat) : Option Unit :=
  if exceedsAt x y n then some () else exceedsFrom x y (n + 1)
partial_fixpoint

/-- `x > y` for exact values (00_scope.md R8): computed for rational numbers, else decided by the search (log 3). -/
def exactGt (x y : Exact) : Bool :=
  match x, y with
  | .rat a, .rat b => decide (a > b)
  | x, y => (exceedsFrom x y 0).isSome

end Sys2Proof.Machine
end

