-- ==== Sys2Proof/Machine/Num.lean ====
section
/-! DEFINITION. The numeric carrier `V` with its operations, in its three admitted instances (00_scope.md R6, R8;
40_advance_datapath.md R82, R83): exact reals as closed expressions, and the binary32 and binary64 formats of IEEE 754 with
round to nearest, ties to even. -/

namespace Sys2Proof.Machine

/-! ### Exact reals -/

/-- The sum of two exact reals; rational numbers are added, `0` is dropped. -/
def exactAdd (x y : Exact) : Exact :=
  match x, y with
  | .rat a, .rat b => .rat (a + b)
  | .rat a, y => if a = 0 then y else .add (.rat a) y
  | x, .rat b => if b = 0 then x else .add x (.rat b)
  | x, y => .add x y

/-- The product of two exact reals; rational numbers are multiplied, a factor `1` is dropped, a factor `0` gives `0`. -/
def exactMul (x y : Exact) : Exact :=
  match x, y with
  | .rat a, .rat b => .rat (a * b)
  | .rat a, y => if a = 0 then .rat 0 else if a = 1 then y else .mul (.rat a) y
  | x, .rat b => if b = 0 then .rat 0 else if b = 1 then x else .mul x (.rat b)
  | x, y => .mul x y

/-- The difference of two exact reals. -/
def exactSub (x y : Exact) : Exact := exactAdd x (exactMul (.rat (-1)) y)

/-- `q` reduced by whole periods into `[0, 2)`: the sine of `PI * q` does not change (40_advance_datapath.md R75 (a)). -/
def periodReduce (q : Rat) : Rat := q - 2 * ((q / 2).floor : Rat)

/-- The sine of `PI * q` for a rational `q`: the rational number it is at the multiples of `PI/6` where it is rational, else
an expression. -/
def exactSinPi (q : Rat) : Exact :=
  let r := periodReduce q
  if r = 0 ∨ r = 1 then .rat 0
  else if r = 1 / 2 then .rat 1
  else if r = 3 / 2 then .rat (-1)
  else if r = 1 / 6 ∨ r = 5 / 6 then .rat (1 / 2)
  else if r = 7 / 6 ∨ r = 11 / 6 then .rat (-1 / 2)
  else .sin (.mul .pi (.rat r))

/-- The sine of an exact real. -/
def exactSin (x : Exact) : Exact :=
  match x with
  | .pi => .rat 0
  | .mul .pi (.rat q) => exactSinPi q
  | .rat q => if q = 0 then .rat 0 else .sin (.rat q)
  | x => .sin x

/-- A binary operation of the exact-real instance on elements of `V`. A datum that is no real number is outside that
instance (60_exceptions.md R126); a result computed from one is marked `nan` (log 6). -/
def exactLift2 (op : Exact → Exact → Exact) (x y : Value) : Value :=
  match x, y with
  | .fin a, .fin b => .fin (op a b)
  | _, _ => .nan

/-! ### Rounding into a binary format -/

/-- `n / d` rounded to the nearest integer, ties to even (93_implementation_defined.md G3). -/
def roundHalfEven (n d : Nat) : Nat :=
  if 2 * (n % d) < d then n / d
  else if d < 2 * (n % d) then n / d + 1
  else n / d + (n / d) % 2

/-- The exponent `e` with `2^e ≤ n / d < 2^(e+1)`, for positive `n` and `d`. -/
def binaryExponent (n d : Nat) : Int :=
  let k : Int := (Nat.log2 n : Int) - (Nat.log2 d : Int)
  let reaches : Bool := match k with
    | .ofNat j => decide (d * 2 ^ j ≤ n)
    | .negSucc j => decide (d ≤ n * 2 ^ (j + 1))
  if reaches then k else k - 1

/-- The exponent of the last digit of `n / d` in a format: subnormal numbers share that of the smallest normal number. -/
def unitExponent (fmt : FloatFormat) (n d : Nat) : Int :=
  max (binaryExponent n d) fmt.emin - ((fmt.precision : Int) - 1)

/-- The number of units `2^t` nearest to `n / d`, ties to even. -/
def roundUnits (n d : Nat) (t : Int) : Nat :=
  match t with
  | .ofNat j => roundHalfEven n (d * 2 ^ j)
  | .negSucc j => roundHalfEven (n * 2 ^ (j + 1)) d

/-- `m * 2^t` as a rational number. -/
def scaledRat (m : Nat) (t : Int) : Rat :=
  match t with
  | .ofNat j => (m : Rat) * (2 ^ j : Nat)
  | .negSucc j => (m : Rat) / (2 ^ (j + 1) : Nat)

/-- The magnitude of a number after rounding, before the test for overflow. -/
def roundMagnitude (fmt : FloatFormat) (n d : Nat) : Rat :=
  scaledRat (roundUnits n d (unitExponent fmt n d)) (unitExponent fmt n d)

/-- A zero with the given sign. -/
def signedZero (negative : Bool) : Value := if negative then .negZero else .lit 0

/-- The element of a format nearest to `q`, ties to even, infinite beyond the largest finite number; `zeroNegative` is the sign
a result takes when `q` is exactly zero (40_advance_datapath.md R82, 93_implementation_defined.md G3). -/
def roundTo (fmt : FloatFormat) (zeroNegative : Bool) (q : Rat) : Value :=
  if q = 0 then signedZero zeroNegative
  else
    let r := roundMagnitude fmt q.num.natAbs q.den
    if scaledRat 1 (fmt.emax + 1) ≤ r then .inf (decide (q < 0))
    else if r = 0 then signedZero (decide (q < 0))
    else .lit (if q < 0 then -r else r)

/-! ### Floating operations -/

/-- The number a finite datum of a format stands for. -/
def floatRat? : Value → Option Rat
  | .fin (.rat q) => some q
  | .negZero => some 0
  | _ => none

/-- The sign of a datum of a format. -/
def floatNeg : Value → Bool
  | .fin (.rat q) => decide (q < 0)
  | .negZero => true
  | .inf n => n
  | _ => false

/-- The datum with its sign changed. -/
def floatNegate : Value → Value
  | .fin (.rat q) => if q = 0 then .negZero else .lit (-q)
  | .negZero => .lit 0
  | .inf n => .inf (!n)
  | _ => .nan

/-- A rounded binary operation on two finite data; a datum that is no element of the format gives `nan` (log 6). -/
def floatFinite2 (fmt : FloatFormat) (zeroNegative : Bool) (op : Rat → Rat → Rat) (x y : Value) : Value :=
  match floatRat? x, floatRat? y with
  | some p, some q => roundTo fmt zeroNegative (op p q)
  | _, _ => .nan

/-- The rounded sum; `inf - inf` is `nan`, any operand `nan` gives `nan` (40_advance_datapath.md R83). An exact zero sum is
`-0` only of two `-0` (93_implementation_defined.md G3). -/
def floatAdd (fmt : FloatFormat) (x y : Value) : Value :=
  match x, y with
  | .nan, _ => .nan
  | _, .nan => .nan
  | .inf m, .inf n => if m = n then .inf m else .nan
  | .inf m, _ => .inf m
  | _, .inf n => .inf n
  | x, y => floatFinite2 fmt (floatNeg x && floatNeg y) (· + ·) x y

/-- The rounded difference. -/
def floatSub (fmt : FloatFormat) (x y : Value) : Value := floatAdd fmt x (floatNegate y)

/-- An infinite factor: `0 * inf` is `nan`, else infinite with the product of the signs (40_advance_datapath.md R83). -/
def floatMulInf (n : Bool) (y : Value) : Value :=
  if floatRat? y = some 0 then .nan else .inf (n != floatNeg y)

/-- The rounded product; a zero product takes the product of the signs. -/
def floatMul (fmt : FloatFormat) (x y : Value) : Value :=
  match x, y with
  | .nan, _ => .nan
  | _, .nan => .nan
  | .inf m, y => floatMulInf m y
  | x, .inf n => floatMulInf n x
  | x, y => floatFinite2 fmt (floatNeg x != floatNeg y) (· * ·) x y

/-- `q` brought into `[-1, 1]`. -/
def clampUnit (q : Rat) : Rat := if q < -1 then -1 else if 1 < q then 1 else q

/-- The platform's sine: some element of the format in `[-1, 1]` for a finite argument, a free function of that argument
(93_implementation_defined.md U8, log 5); `nan` for an infinite one (40_advance_datapath.md R83). -/
def floatSin (k : NumKind) (fmt : FloatFormat) (x : Value) : Value :=
  match floatRat? x with
  | some _ => roundTo fmt (Config.platformSin k x).2 (clampUnit (Config.platformSin k x).1)
  | none => .nan

/-- The strict order; false whenever either side is not a number (00_scope.md R8). -/
def floatGt (x y : Value) : Bool :=
  match x, y with
  | .inf m, .inf n => !m && n
  | .inf m, y => !m && (floatRat? y).isSome
  | x, .inf n => n && (floatRat? x).isSome
  | x, y =>
    match floatRat? x, floatRat? y with
    | some p, some q => decide (p > q)
    | _, _ => false

/-! ### The operations of `NUM` -/

/-- `x + y` (00_scope.md R8). -/
def numAdd (k : NumKind) (x y : Value) : Value :=
  match k.format? with
  | none => exactLift2 exactAdd x y
  | some fmt => floatAdd fmt x y

/-- `x - y` (00_scope.md R8). -/
def numSub (k : NumKind) (x y : Value) : Value :=
  match k.format? with
  | none => exactLift2 exactSub x y
  | some fmt => floatSub fmt x y

/-- `x * y` (00_scope.md R8). -/
def numMul (k : NumKind) (x y : Value) : Value :=
  match k.format? with
  | none => exactLift2 exactMul x y
  | some fmt => floatMul fmt x y

/-- A rational constant as `NUM` holds it: itself, or the nearest element of the format (92_eei_decisions.md D18). -/
def numOfRat (k : NumKind) (q : Rat) : Value :=
  match k.format? with
  | none => .lit q
  | some fmt => roundTo fmt false q

/-- `1 / n`: `NUM`'s quotient of the literals `1` and `n` (00_scope.md R8, 90_conflicts.md C5). -/
def numRecip (k : NumKind) (n : Nat) : Value := numOfRat k (1 / (n : Rat))

/-- `sin(x)` (00_scope.md R8). -/
def numSin (k : NumKind) (x : Value) : Value :=
  match k.format? with
  | none =>
    match x with
    | .fin a => .fin (exactSin a)
    | _ => .nan
  | some fmt => floatSin k fmt x

/-- `x > y` (00_scope.md R8). -/
def numGt (k : NumKind) (x y : Value) : Bool :=
  match k.format? with
  | none =>
    match x, y with
    | .fin a, .fin b => exactGt a b
    | _, _ => false
  | some _ => floatGt x y

/-- `PI`: `NUM`'s constant nearest to the circle constant (00_scope.md R8, log 23). -/
def numPi : NumKind → Value
  | .exactReal => .fin .pi
  | .binary32 => .lit (13176795 / 4194304)
  | .binary64 => .lit (884279719003555 / 281474976710656)

/-- `K_MOD` (00_scope.md R5). -/
def numKMod (k : NumKind) : Value := numOfRat k kModExact

/-- `int_to_V` of one bit (00_scope.md R8, 30_encoding.md R53). -/
def intToV (b : Bool) : Value := if b then .lit 1 else .lit 0

/-! ### Which data are elements of the carrier -/

/-- The datum is an element of the carrier `V` of the instance (00_scope.md R6). -/
def inCarrier (k : NumKind) (v : Value) : Bool :=
  match k.format? with
  | none => v.isReal
  | some fmt =>
    match v with
    | .fin (.rat q) => decide (roundTo fmt false q = .lit q)
    | .fin _ => false
    | .negZero => true
    | .inf _ => true
    | .nan => true

/-- The datum can stand at a port or be the operand of `WRFBL`: an element of `V`, or, in the exact-real instance, a non-finite
value that the engine will refuse with `F_NONFINITE` (60_exceptions.md R126). -/
def presentable (k : NumKind) (v : Value) : Bool :=
  match v with
  | .inf _ => true
  | .nan => true
  | v => inCarrier k v

end Sys2Proof.Machine
end

