-- ==== Sys2Proof/Syntax.lean ====
section
/-! DEFINITION. The instructions: one constructor per row of spec/opcode_table.json, each with the four fields every
descriptor word has beside its opcode (30_encoding.md R50, R51, R55). -/

namespace Sys2Proof

/-- An instruction, that is one `OperatorDescriptor`: the constructor is the selector `sel`; `a` is the capture bit
(30_encoding.md R52), `c` and `d` the mix coefficients (R53), `com` the three-bit attenuation index, which acts on the next
operator index (R54). -/
inductive Instr where
  /-- `NONE`, `sel = 0`. -/
  | none (a c d : Bool) (com : BitVec 3)
  /-- `SELF`, `sel = 1`. -/
  | self (a c d : Bool) (com : BitVec 3)
  /-- `MEM`, `sel = 2`. -/
  | mem (a c d : Bool) (com : BitVec 3)
  /-- `PMEM`, `sel = 3`. -/
  | pmem (a c d : Bool) (com : BitVec 3)
  /-- `FB`, `sel = 4`. -/
  | fb (a c d : Bool) (com : BitVec 3)
  /-- `FBMIX`, `sel = 5`. -/
  | fbmix (a c d : Bool) (com : BitVec 3)
deriving DecidableEq, Repr

/-- The selector field of an instruction (30_encoding.md R51). -/
def Instr.sel : Instr → BitVec 3
  | .none _ _ _ _ => 0
  | .self _ _ _ _ => 1
  | .mem _ _ _ _ => 2
  | .pmem _ _ _ _ => 3
  | .fb _ _ _ _ => 4
  | .fbmix _ _ _ _ => 5

/-- The capture bit of an instruction (30_encoding.md R52). -/
def Instr.a : Instr → Bool
  | .none a _ _ _ => a
  | .self a _ _ _ => a
  | .mem a _ _ _ => a
  | .pmem a _ _ _ => a
  | .fb a _ _ _ => a
  | .fbmix a _ _ _ => a

/-- The coefficient of the old `mem` (30_encoding.md R53). -/
def Instr.c : Instr → Bool
  | .none _ c _ _ => c
  | .self _ c _ _ => c
  | .mem _ c _ _ => c
  | .pmem _ c _ _ => c
  | .fb _ c _ _ => c
  | .fbmix _ c _ _ => c

/-- The coefficient of the slot's sample (30_encoding.md R53). -/
def Instr.d : Instr → Bool
  | .none _ _ d _ => d
  | .self _ _ d _ => d
  | .mem _ _ d _ => d
  | .pmem _ _ d _ => d
  | .fb _ _ d _ => d
  | .fbmix _ _ d _ => d

/-- The attenuation index (30_encoding.md R54). -/
def Instr.com : Instr → BitVec 3
  | .none _ _ _ com => com
  | .self _ _ _ com => com
  | .mem _ _ _ com => com
  | .pmem _ _ _ com => com
  | .fb _ _ _ com => com
  | .fbmix _ _ _ com => com

end Sys2Proof
end

