-- ==== Sys2Proof/WellFormed.lean ====
section
/-! DEFINITION. Which instructions are legal descriptors (20_memory.md R32, 30_encoding.md R54, R57). -/

namespace Sys2Proof

/-- A legal descriptor: `com` is in 0..5. That `sel` is in 0..5 and that `a`, `c`, `d` are one bit each holds of every term of
the type (20_memory.md R32). -/
def Instr.wf (i : Instr) : Bool := decide (i.com.toNat ≤ comMax)

end Sys2Proof
end

