-- ==== Sys2Proof/Decode.lean ====
section
/-! DEFINITION. Decoding of a descriptor word, total on all 512 words (30_encoding.md R50, R55 to R57), then the encoder
(R50), then the reading of a word as spec/opcode_table.json numbers its bits. -/

namespace Sys2Proof

/-- Why a word is no instruction (30_encoding.md R57). -/
inductive DecodeError where
  /-- `sel` is 6 or 7 (41_selector_instructions.md R97). -/
  | reservedSelector (sel : BitVec 3)
  /-- `com` is 6 or 7. -/
  | reservedCom (com : BitVec 3)
deriving DecidableEq, Repr

/-- `w[8:6]`. -/
def wordSel (w : RomWord) : BitVec 3 := w.extractLsb' 6 3

/-- `w[5]`. -/
def wordA (w : RomWord) : Bool := w.getLsbD 5

/-- `w[4]`. -/
def wordC (w : RomWord) : Bool := w.getLsbD 4

/-- `w[3]`. -/
def wordD (w : RomWord) : Bool := w.getLsbD 3

/-- `w[2:0]`. -/
def wordCom (w : RomWord) : BitVec 3 := w.extractLsb' 0 3

/-- The instruction a selector stands for, if it is one of the six (30_encoding.md R51, R55). -/
def instrOfSel (sel : BitVec 3) (a c d : Bool) (com : BitVec 3) : Except DecodeError Instr :=
  match sel.toNat with
  | 0 => .ok (.none a c d com)
  | 1 => .ok (.self a c d com)
  | 2 => .ok (.mem a c d com)
  | 3 => .ok (.pmem a c d com)
  | 4 => .ok (.fb a c d com)
  | 5 => .ok (.fbmix a c d com)
  | _ => .error (.reservedSelector sel)

/-- The decode procedure of 30_encoding.md R56. A word reserved in both fields is named by its selector
(log 26). -/
def decode (w : RomWord) : Except DecodeError Instr :=
  match instrOfSel (wordSel w) (wordA w) (wordC w) (wordD w) (wordCom w) with
  | .error e => .error e
  | .ok i => if (wordCom w).toNat ≤ comMax then .ok i else .error (.reservedCom (wordCom w))

/-- A word that is an instruction (20_memory.md R32). -/
def legalWord (w : RomWord) : Bool :=
  match decode w with
  | .ok _ => true
  | .error _ => false

/-- The word of an instruction: `{sel[2:0], a, c, d, com[2:0]}` (30_encoding.md R50). -/
def encode (i : Instr) : RomWord :=
  i.sel ++ (BitVec.ofBool i.a ++ (BitVec.ofBool i.c ++ (BitVec.ofBool i.d ++ i.com)))

/-- The instruction the decoder reads from the `nbits` bits of `w`, numbered as spec/opcode_table.json numbers them. An
instruction is one 9-bit word, so bits above bit 8 belong to no instruction and must be 0 (log 25). -/
def decodeTableWord (nbits w : Nat) : Option Instr :=
  if w % 2 ^ nbits < 2 ^ 9 then
    match decode (BitVec.ofNat 9 (w % 2 ^ nbits)) with
    | .ok i => some i
    | .error _ => Option.none
  else Option.none

end Sys2Proof
end

