-- ==== Sys2Proof/Machine/State.lean ====
section
/-! DEFINITION. The state of one voice as plain data: the engine's registers (10_state.md R25), the configuration it runs under
(00_scope.md R6), and its surroundings (42_host_interface.md R109); the reasons a step can stop; the state after reset. -/

namespace Sys2Proof.Machine

/-- Where a value enters the engine: what `F_NONFINITE` records beside the value (60_exceptions.md R121). -/
inductive Port where
  | freqIn (i : OpIndex)
  | ampIn (i : OpIndex)
  | wrfbl
deriving DecidableEq, Repr

/-- The sticky record `fault` with the value each name records (10_state.md R20, 60_exceptions.md R121). -/
inductive FaultRecord where
  | none
  /-- `F_SLOT_ORDER`: `ADVANCE i` with `i != slot` or `i` outside 0..5. -/
  | slotOrder (i : Int) (slot : BitVec 3)
  /-- `F_ALG_RANGE`: an algorithm id outside `[0,32)` presented to `WRALG`. -/
  | algRange (id : Int)
  /-- `F_ROM_RESERVED`: a fetched word with a reserved field. -/
  | romReserved (row : BitVec 5) (index : OpIndex) (word : RomWord)
  /-- `F_NONFINITE`: a non-finite input or control value, exact-real instance only. -/
  | nonFinite (port : Port) (value : Value)
deriving DecidableEq, Repr

/-- The codes of 60_exceptions.md R121. -/
def FaultRecord.code : FaultRecord → Nat
  | .none => 0
  | .slotOrder _ _ => 1
  | .algRange _ => 2
  | .romReserved _ _ _ => 3
  | .nonFinite _ _ => 4

/-- One move of an agent (42_host_interface.md R109). 10_state.md R21 also lets AUDIO HOST read `slot`, `out_valid` and `fault`, for
which the spec names no operation: the model has no move for these reads, which show fields of State (log 29). -/
inductive HostOp where
  /-- AUDIO HOST: present a frequency and an amplitude at the ports of index `i`, or leave a port undriven (R105). -/
  | drive (i : OpIndex) (freq amp : Option Value)
  /-- AUDIO HOST: `ADVANCE i` (R103). The operand is any integer; only `slot` does not raise. -/
  | advance (i : Int)
  /-- AUDIO HOST: `RDOUT` (R104). -/
  | rdout
  /-- CONTROL: `WRALG v` (R106); the operand is any integer, the register has 5 bits (log 13). -/
  | wralg (v : Int)
  /-- CONTROL: `WRFBL v` (R107). -/
  | wrfbl (v : Value)
  /-- Start-up: reset, also the one exit from a faulted state (70_reset_and_hazards.md R140). -/
  | reset
deriving DecidableEq, Repr

/-- What an `RDOUT` gives back (42_host_interface.md R104). Reads of `slot`, `out_valid` and `fault` have no answer here (log 29). -/
inductive Answer where
  | sample (v : Value)
  | refused
deriving DecidableEq, Repr

/-- The algorithm ROM: pairs of a linear address `alg*6 + idx` and the word there (20_memory.md R30), addresses strictly
rising. An address that is not listed holds no word (log 7). -/
abbrev Memory := List (Nat × RomWord)

/-- The canonical form of a memory: addresses strictly rising, each one of the 192 that exist. -/
def Memory.wf : Memory → Bool
  | [] => true
  | [(a, _)] => decide (a < nRomWords)
  | (a, _) :: (b, w) :: rest => decide (a < b) && Memory.wf ((b, w) :: rest)

/-- Everything one voice holds, with its configuration and its surroundings. -/
structure State where
  /-- `phase[0..5]` (10_state.md R11). -/
  phase : Vector Value 6
  /-- `mod` (R12). -/
  mod : Value
  /-- `feedback[0]`, the most recent capture (R13). -/
  feedback0 : Value
  /-- `feedback[1]`, the capture before it (R13). -/
  feedback1 : Value
  /-- `mem` (R14), also the output port `OUT` (20_memory.md R37). -/
  mem : Value
  /-- `algorithmId` (R16). -/
  algorithmId : BitVec 5
  /-- `feedbackLevel` (R17). -/
  feedbackLevel : Value
  /-- `algorithmId_pend` (R18). -/
  algorithmIdPend : BitVec 5
  /-- `feedbackLevel_pend` (R18). -/
  feedbackLevelPend : Value
  /-- `slot`, the program counter (R15). -/
  slot : BitVec 3
  /-- `out_valid` (R19). -/
  outValid : Bool
  /-- `fault` (R20). -/
  fault : FaultRecord
  /-- The instance of `NUM` (00_scope.md R6); no step writes it. -/
  num : NumKind
  /-- `MIX_MODE` (00_scope.md R6); no step writes it. -/
  mixMode : MixMode
  /-- `ALG_ROM` (20_memory.md R32); no step writes it. -/
  rom : Memory
  /-- What drives `FREQ_IN(0..5)`; `none` is undriven (20_memory.md R36). -/
  freqIn : Vector (Option Value) 6
  /-- What drives `AMP_IN(0..5)`; `none` is undriven (20_memory.md R36). -/
  ampIn : Vector (Option Value) 6
  /-- The moves the agents have yet to make, next first (log 8). -/
  ops : List HostOp
  /-- What the `RDOUT` reads have given back, newest first (log 12). -/
  answers : List Answer
deriving DecidableEq, Repr

/-- Why no step is enabled. All are safe: the machine stops where the hardware waits or is not complete. -/
inductive Fault where
  /-- Raised by `step` when no move is requested: "the engine has no idle step" (42_host_interface.md R101). Safe. -/
  | idle
  /-- Raised by an `ADVANCE` whose ports are not both driven: "`ADVANCE i` is not enabled until `FREQ_IN(i)` and `AMP_IN(i)`
  have values" (93_implementation_defined.md U11). Safe. -/
  | inputUndriven (i : OpIndex)
  /-- Raised by an `ADVANCE` that fetches an address at which the image supplies no word (log 7). Safe. -/
  | romAbsent (address : Nat)
deriving DecidableEq, Repr

/-- Why the model gives no meaning to a request. All are safe. -/
inductive Refusal where
  /-- Raised by an arm of `exec` whose instruction has no meaning yet. Safe. -/
  | notModelled (mnemonic : String)
  /-- Raised by `drive` and `WRFBL` for a datum that is no element of the instance's carrier `V` (log 6). Safe. -/
  | notInCarrier (v : Value)
  /-- Raised by a reset of a machine with no fault recorded: "no warm reset is modelled" (92_eei_decisions.md D22). Safe. -/
  | warmReset
deriving DecidableEq, Repr

/-- The state right after reset of a machine with the given configuration (10_state.md R25, 70_reset_and_hazards.md R140). -/
def State.powerUp (num : NumKind) (mixMode : MixMode) (rom : Memory) : State where
  phase := Vector.replicate 6 Value.zero
  mod := Value.zero
  feedback0 := Value.zero
  feedback1 := Value.zero
  mem := Value.zero
  algorithmId := 0
  feedbackLevel := Value.zero
  algorithmIdPend := 0
  feedbackLevelPend := Value.zero
  slot := 0
  outValid := false
  fault := .none
  num := num
  mixMode := mixMode
  rom := rom
  freqIn := Vector.replicate 6 none
  ampIn := Vector.replicate 6 none
  ops := []
  answers := []

/-- The machine right after reset: the reference instance of `NUM`, `MIX_MODE = multiply`, no ROM image fitted and no move
requested (log 1, 7, 8, 18, 21). -/
def State.reset : State := State.powerUp .exactReal .multiply []

end Sys2Proof.Machine
end

