-- ==== Sys2Proof/Machine/Rom.lean ====
section
/-! DEFINITION. The algorithm ROM: lookup and fitting of words, the ROM read primitive, and well-formed images
(20_memory.md R30 to R35, R46). -/

namespace Sys2Proof.Machine

/-- The word at a linear address, if the image supplies one (log 7). -/
def romLookup : Memory → Nat → Option RomWord
  | [], _ => none
  | (b, w) :: rest, a => if a = b then some w else romLookup rest a

/-- The memory with the content of one address replaced, in canonical form; `none` takes the word out. -/
def romReplace : Memory → Nat → Option RomWord → Memory
  | [], a, some w => [(a, w)]
  | [], _, none => []
  | (b, x) :: rest, a, v =>
    if a < b then
      match v with
      | some w => (a, w) :: (b, x) :: rest
      | none => (b, x) :: rest
    else if a = b then
      match v with
      | some w => (a, w) :: rest
      | none => rest
    else (b, x) :: romReplace rest a v

/-- Fits a word at an address of the ROM, or takes it out; an address that does not exist holds nothing (20_memory.md R46).
No step of the machine does this: the image is fixed before a run (20_memory.md R34). -/
def romStore (m : Memory) (a : Nat) (v : Option RomWord) : Memory :=
  if a < nRomWords then romReplace m a v else m

/-- The linear address `alg * 6 + (idx mod 6)`, with the Euclidean modulo (20_memory.md R30, R31; 00_scope.md R7). -/
def romAddress (alg : BitVec 5) (idx : Int) : Nat := alg.toNat * nOps + (idx % (nOps : Int)).toNat

/-- `RomRead(alg, idx)` as a word: any integer index, taken modulo 6 (20_memory.md R31). -/
def romRead (m : Memory) (alg : BitVec 5) (idx : Int) : Option RomWord := romLookup m (romAddress alg idx)

/-- `RomRead(alg, idx)` as a descriptor, the source's `lookup` (20_memory.md R31): none only where the image supplies no word or
a reserved one. -/
def romDescriptor (m : Memory) (alg : BitVec 5) (idx : Int) : Option Instr :=
  match romRead m alg idx with
  | none => none
  | some w =>
    match decode w with
    | .ok i => some i
    | .error _ => none

/-- An image supplies a legal word at each of the 192 addresses (20_memory.md R32). -/
def wellFormedImage (m : Memory) : Bool :=
  Memory.wf m &&
    (List.range nRomWords).all fun a =>
      match romLookup m a with
      | some w => legalWord w
      | none => false

/-- Words at consecutive addresses. -/
def romNumber : Nat → List RomWord → Memory
  | _, [] => []
  | a, w :: ws => (a, w) :: romNumber (a + 1) ws

/-- The construction of an image from its 192 words, row 0 first; refused if a word is reserved (30_encoding.md R57). -/
def buildImage (ws : List RomWord) : Option Memory :=
  if ws.length = nRomWords ∧ ws.all legalWord then some (romNumber 0 ws) else none

end Sys2Proof.Machine
end

