-- ==== Sys2Proof/Machine/Operands.lean ====
section
/-! DEFINITION. The operand forms of the engine's step: the operator index in `slot`, the row of the frame, the prior word, the
attenuation factor, the input ports. -/

namespace Sys2Proof.Machine

/-- The operator index `slot` holds; 6 and 7 are none (10_state.md R15). -/
def slotIndex? (slot : BitVec 3) : Option OpIndex :=
  if h : slot.toNat < 6 then some ⟨slot.toNat, h⟩ else none

/-- `(i + 1) mod 6` (40_advance_datapath.md R79). -/
def nextSlot (i : OpIndex) : BitVec 3 := BitVec.ofNat 3 ((i.val + 1) % 6)

/-- The index of the prior word, `(i + 5) mod 6` (20_memory.md R33, 40_advance_datapath.md R73). -/
def priorIndex (i : OpIndex) : OpIndex := ⟨(i.val + 5) % 6, Nat.mod_lt _ (by decide)⟩

/-- The row the slot uses: at slot 0 the id about to be latched (40_advance_datapath.md R70). -/
def fetchRow (s : State) (i : OpIndex) : BitVec 5 := if i = 0 then s.algorithmIdPend else s.algorithmId

/-- `RomRead(row, i)`, the descriptor word of the slot (40_advance_datapath.md R73). -/
def descriptorWord (s : State) (i : OpIndex) : Option RomWord := romRead s.rom (fetchRow s i) i.val

/-- `RomRead(row, i - 1)`, the prior word of the slot (40_advance_datapath.md R73). -/
def priorWord (s : State) (i : OpIndex) : Option RomWord := romRead s.rom (fetchRow s i) ((i.val : Int) - 1)

/-- `ATT(com) = 1 / (com + 1)` (00_scope.md R5, 30_encoding.md R54). -/
def attenuation (k : NumKind) (com : BitVec 3) : Value := numRecip k (com.toNat + 1)

end Sys2Proof.Machine
end

