-- ==== Sys2Proof/Machine/Flags.lean ====
section
/-! DEFINITION. The flags. The hardware has no status flags, condition codes or predicates (10_state.md R22); the one flag bit
of the state is `out_valid`. -/

namespace Sys2Proof.Machine

/-- `out_valid` after the slot of index `i` (10_state.md R19, 40_advance_datapath.md R79). -/
def outValidAfter (i : OpIndex) : Bool := decide (i = 5)

end Sys2Proof.Machine
end

