-- ==== Sys2Proof/Machine/Ops.lean ====
section
/-! DEFINITION. The shared operations of the engine: raising a fault, the seven sub-steps of `ADVANCE`, and the whole step with
the router left as an argument (40_advance_datapath.md R70, 41_selector_instructions.md R96). -/

namespace Sys2Proof.Machine

/-- What a step of the machine answers. -/
abbrev StepResult := Host.Outcome State Fault Refusal

/-- The state with another list of moves to come. -/
def setOps (s : State) (ops : List HostOp) : State := { s with ops := ops }

/-- `raise`: records the fault and writes nothing else (60_exceptions.md R125). At most one fault is recorded (R129, R131): a
record that stands is kept (log 14). There is no handler, vector, saved state or mode (R130). -/
def raise (s : State) (f : FaultRecord) : State :=
  if s.fault = .none then { s with fault := f } else s

/-- The way out of a recorded fault: reset. Every register takes its reset value and the ports are undriven; the configuration,
the requested moves and the answers given stay (60_exceptions.md R125, 70_reset_and_hazards.md R140, log 17). -/
def resetEngine (s : State) : State :=
  { State.powerUp s.num s.mixMode s.rom with ops := s.ops, answers := s.answers }

/-- The frame-start latch (40_advance_datapath.md R71). -/
def latch (s : State) (i : OpIndex) : State :=
  if i = 0 then { s with algorithmId := s.algorithmIdPend, feedbackLevel := s.feedbackLevelPend } else s

/-- Step 1: the phase accumulator with its one conditional subtraction (40_advance_datapath.md R72). -/
def nextPhase (k : NumKind) (phase f : Value) : Value :=
  if numGt k (numAdd k phase f) (.lit 1) then numSub k (numAdd k phase f) (.lit 2) else numAdd k phase f

/-- Step 3: the modulation mixer and the sample, in the order of evaluation of 40_advance_datapath.md R74. -/
def sampleOf (k : NumKind) (p mod amp : Value) (priorCom : BitVec 3) : Value :=
  let t1 := numMul k (numKMod k) mod
  let t2 := numAdd k p t1
  let arg := numMul k (numPi k) t2
  let s0 := numSin k arg
  let s1 := numMul k s0 amp
  numMul k s1 (attenuation k priorCom)

/-- Step 4: `feedback[0]` and `feedback[1]` after the optional capture (40_advance_datapath.md R76). -/
def capturedTaps (a : Bool) (sample feedback0 feedback1 : Value) : Value × Value :=
  if a then (sample, feedback0) else (feedback0, feedback1)

/-- Step 5: the memory recurrence (40_advance_datapath.md R77), with products or, under the other value of `MIX_MODE`, as a
selection (92_eei_decisions.md D13). -/
def newMemoryOf (k : NumKind) (mode : MixMode) (c d : Bool) (mem sample : Value) : Value :=
  match mode with
  | .multiply => numAdd k (numMul k (intToV c) mem) (numMul k (intToV d) sample)
  | .select =>
    match c, d with
    | false, false => .lit 0
    | true, false => mem
    | false, true => sample
    | true, true => numAdd k mem sample

/-- What the algorithm router of step 6 can choose from (40_advance_datapath.md R78, R80). -/
structure Wires where
  /-- The instance of `NUM`, for the arithmetic of `FBMIX`. -/
  num : NumKind
  /-- `sample` of step 3. -/
  sample : Value
  /-- `newMemory` of step 5. -/
  newMemory : Value
  /-- `mem` before step 7. -/
  oldMem : Value
  /-- `feedback[0]` after step 4. -/
  tap0 : Value
  /-- `feedback[1]` after step 4. -/
  tap1 : Value
  /-- `feedbackLevel` as latched for the frame. -/
  level : Value
deriving DecidableEq, Repr

/-- The wires of the slot of index `i` once its latch is done, for inputs `f`, `amp` and the prior word's `com`
(40_advance_datapath.md R70, steps 1 to 5). -/
def wiresOf (s : State) (i : OpIndex) (f amp : Value) (priorCom : BitVec 3) (instr : Instr) : Wires :=
  let sample := sampleOf s.num (nextPhase s.num s.phase[i] f) s.mod amp priorCom
  { num := s.num
    sample := sample
    newMemory := newMemoryOf s.num s.mixMode instr.c instr.d s.mem sample
    oldMem := s.mem
    tap0 := (capturedTaps instr.a sample s.feedback0 s.feedback1).1
    tap1 := (capturedTaps instr.a sample s.feedback0 s.feedback1).2
    level := s.feedbackLevel }

/-- Steps 1, 4, 6, 7 and the bookkeeping as one write, given the wires (40_advance_datapath.md R70, R79). -/
def commitSlot (s : State) (i : OpIndex) (f : Value) (w : Wires) (mod : Value) : State :=
  { s with
    phase := s.phase.set i (nextPhase s.num s.phase[i] f)
    feedback0 := w.tap0
    feedback1 := w.tap1
    mod := mod
    mem := w.newMemory
    outValid := outValidAfter i
    slot := nextSlot i }

/-- The effect of an enabled slot: latch, datapath, router, commit (40_advance_datapath.md R70, 41_selector_instructions.md
R96). -/
def performSlot (s : State) (i : OpIndex) (f amp : Value) (priorCom : BitVec 3) (instr : Instr) (route : Wires → Value) :
    State :=
  let s1 := latch s i
  let w := wiresOf s1 i f amp priorCom instr
  commitSlot s1 i f w (route w)

/-- The reads of `FREQ_IN(i)` and `AMP_IN(i)` with their checks: an undriven port leaves the step not enabled
(42_host_interface.md R103); in the exact-real instance a value that is no real number raises `F_NONFINITE`, the frequency
first (60_exceptions.md R126, R129). -/
def withInputs (s : State) (i : OpIndex) (body : Value → Value → StepResult) : StepResult :=
  match s.freqIn[i], s.ampIn[i] with
  | some f, some amp =>
    if s.num = .exactReal ∧ f.isReal = false then .next (raise s (.nonFinite (.freqIn i) f))
    else if s.num = .exactReal ∧ amp.isReal = false then .next (raise s (.nonFinite (.ampIn i) amp))
    else body f amp
  | _, _ => .fault (.inputUndriven i)

/-- The fetch of the prior word, of which only `com` is used (20_memory.md R33); a reserved word raises `F_ROM_RESERVED`
(60_exceptions.md R124). -/
def withPriorCom (s : State) (i : OpIndex) (body : BitVec 3 → StepResult) : StepResult :=
  match priorWord s i with
  | none => .fault (.romAbsent (romAddress (fetchRow s i) ((i.val : Int) - 1)))
  | some w =>
    match decode w with
    | .ok prior => body prior.com
    | .error _ => .next (raise s (.romReserved (fetchRow s i) (priorIndex i) w))

/-- `ADVANCE` at the index in `slot` with the descriptor `instr` and the router value `route`: the enabling checks in the order
of 60_exceptions.md R129, then the effect (40_advance_datapath.md R70). With a fault recorded there is no step and nothing
changes (R125, log 11; log 15, 19 and 27 for the corners). -/
def advanceWith (instr : Instr) (route : Wires → Value) (s : State) : StepResult :=
  if s.fault = .none then
    match slotIndex? s.slot with
    | none => .next (raise s (.slotOrder (s.slot.toNat : Int) s.slot))
    | some i =>
      withInputs s i fun f amp =>
        if instr.wf then
          withPriorCom s i fun priorCom => .next (performSlot s i f amp priorCom instr route)
        else .next (raise s (.romReserved (fetchRow s i) i (encode instr)))
  else .next s

end Sys2Proof.Machine
end

