-- ==== Sys2Proof/Machine/Selectors.lean ====
section
/-! DEFINITION. The meanings of the six instructions: the common step with the value each writes to `mod`
(41_selector_instructions.md R90 to R96). -/

namespace Sys2Proof.Machine

/-- R90: `NUM`'s zero. -/
def routeNone (_ : Wires) : Value := Value.zero

/-- R91: the sample. -/
def routeSelf (w : Wires) : Value := w.sample

/-- R92: the new memory. -/
def routeMem (w : Wires) : Value := w.newMemory

/-- R93: `mem` as it was before the slot. -/
def routePmem (w : Wires) : Value := w.oldMem

/-- R94: `feedback[0]` after the capture. -/
def routeFb (w : Wires) : Value := w.tap0

/-- R95: `u <- feedback'[0] + feedback'[1]`, `v <- feedbackLevel * u`, `mod <- v * (1/6)`. -/
def routeFbmix (w : Wires) : Value :=
  let u := numAdd w.num w.tap0 w.tap1
  let v := numMul w.num w.level u
  numMul w.num v (numRecip w.num 6)

/-- `NONE` (41_selector_instructions.md R90). -/
def execNone (a c d : Bool) (com : BitVec 3) (s : State) : StepResult := advanceWith (.none a c d com) routeNone s

/-- `SELF` (R91). -/
def execSelf (a c d : Bool) (com : BitVec 3) (s : State) : StepResult := advanceWith (.self a c d com) routeSelf s

/-- `MEM` (R92). -/
def execMem (a c d : Bool) (com : BitVec 3) (s : State) : StepResult := advanceWith (.mem a c d com) routeMem s

/-- `PMEM` (R93). -/
def execPmem (a c d : Bool) (com : BitVec 3) (s : State) : StepResult := advanceWith (.pmem a c d com) routePmem s

/-- `FB` (R94). -/
def execFb (a c d : Bool) (com : BitVec 3) (s : State) : StepResult := advanceWith (.fb a c d com) routeFb s

/-- `FBMIX` (R95). -/
def execFbmix (a c d : Bool) (com : BitVec 3) (s : State) : StepResult := advanceWith (.fbmix a c d com) routeFbmix s

end Sys2Proof.Machine
end

