-- ==== Sys2Proof/Machine/Dispatch.lean ====
section
/-! DEFINITION. Which meaning each instruction has: one arm per constructor. -/

namespace Sys2Proof.Machine

def exec (i : Instr) (s : State) : Host.Outcome State Fault Refusal :=
  match i with
  | .none a c d com => Sys2Proof.Machine.execNone a c d com s
  | .self a c d com => Sys2Proof.Machine.execSelf a c d com s
  | .mem a c d com => Sys2Proof.Machine.execMem a c d com s
  | .pmem a c d com => Sys2Proof.Machine.execPmem a c d com s
  | .fb a c d com => Sys2Proof.Machine.execFb a c d com s
  | .fbmix a c d com => Sys2Proof.Machine.execFbmix a c d com s

end Sys2Proof.Machine
end

