-- ==== Sys2Proof/Machine/HostPort.lean ====
section
/-! DEFINITION. The operations of the agents around the engine (42_host_interface.md R103 to R109), the fetch of the slot's
instruction, and the fitting of a word where the next step fetches. -/

namespace Sys2Proof.Machine

/-- The fetch of the slot's descriptor and its execution (40_advance_datapath.md R73). The input checks come before the check
of the word (60_exceptions.md R129, log 15). -/
def fetchAndExec (s : State) (i : OpIndex) : StepResult :=
  match descriptorWord s i with
  | none => withInputs s i fun _ _ => .fault (.romAbsent (romAddress (fetchRow s i) i.val))
  | some w =>
    match decode w with
    | .ok instr => exec instr s
    | .error _ => withInputs s i fun _ _ => .next (raise s (.romReserved (fetchRow s i) i w))

/-- `ADVANCE i` (42_host_interface.md R103): not enabled while a fault is recorded, so nothing changes (60_exceptions.md R125,
log 11); `F_SLOT_ORDER` unless `i` is the index in `slot` (R122; 6 and 7 are no index, log 19). -/
def opAdvance (i : Int) (s : State) : StepResult :=
  if s.fault = .none then
    match slotIndex? s.slot with
    | none => .next (raise s (.slotOrder i s.slot))
    | some k => if i = (k.val : Int) then fetchAndExec s k else .next (raise s (.slotOrder i s.slot))
  else .next s

/-- Driving the ports of index `i` (42_host_interface.md R105); what is driven stays until it is driven again (log 9). -/
def opDrive (i : OpIndex) (freq amp : Option Value) (s : State) : StepResult :=
  match freq.filter (fun v => !presentable s.num v), amp.filter (fun v => !presentable s.num v) with
  | some v, _ => .refused (.notInCarrier v)
  | none, some v => .refused (.notInCarrier v)
  | none, none => .next { s with freqIn := s.freqIn.set i freq, ampIn := s.ampIn.set i amp }

/-- `RDOUT` (42_host_interface.md R104): the value of `mem` when `out_valid = 1` and no fault is recorded, else refused; the
engine's state does not change (log 12). -/
def opRdout (s : State) : StepResult :=
  if s.fault = .none ∧ s.outValid = true then .next { s with answers := .sample s.mem :: s.answers }
  else .next { s with answers := .refused :: s.answers }

/-- `WRALG v` (42_host_interface.md R106): always enabled; an operand outside `[0,32)`, which the 5-bit port cannot carry, raises
`F_ALG_RANGE` (60_exceptions.md R123, log 13). -/
def opWralg (v : Int) (s : State) : StepResult :=
  if 0 ≤ v ∧ v < (nAlg : Int) then .next { s with algorithmIdPend := BitVec.ofInt 5 v }
  else .next (raise s (.algRange v))

/-- `WRFBL v` (42_host_interface.md R107): always enabled, not clamped; in the exact-real instance a non-finite operand raises
`F_NONFINITE` (60_exceptions.md R121, log 16). -/
def opWrfbl (v : Value) (s : State) : StepResult :=
  if inCarrier s.num v then .next { s with feedbackLevelPend := v }
  else if presentable s.num v then .next (raise s (.nonFinite .wrfbl v))
  else .refused (.notInCarrier v)

/-- Reset as the exit from a faulted state (70_reset_and_hazards.md R140); a reset of a machine with no fault is no move
(92_eei_decisions.md D22, log 17). -/
def opReset (s : State) : StepResult :=
  if s.fault = .none then .refused .warmReset else .next (resetEngine s)

/-- One move of an agent (42_host_interface.md R109). -/
def performOp (op : HostOp) (s : State) : StepResult :=
  match op with
  | .drive i freq amp => opDrive i freq amp s
  | .advance i => opAdvance i s
  | .rdout => opRdout s
  | .wralg v => opWralg v s
  | .wrfbl v => opWrfbl v s
  | .reset => opReset s

/-- One step: the next requested move is taken from the list and made; with none requested there is no step
(42_host_interface.md R101, log 8). -/
def stepOp (s : State) : StepResult :=
  match s.ops with
  | [] => .fault .idle
  | op :: rest => performOp op (setOps s rest)

/-- The word of 20_memory.md R32 that stands in for an absent or reserved prior word: `NONE CLR com=0`. -/
def blankWord : RomWord := 0

/-- A port value, with the number zero where the port is undriven (only for `fitFetchWord`; the engine never does this). -/
def drivenOrZero (v : Option Value) : Option Value :=
  match v with
  | some x => some x
  | none => some Value.zero

/-- The image with a word at `a`, unless the word there is legal already. -/
def romStoreIfIllegal (m : Memory) (a : Nat) (w : RomWord) : Memory :=
  match romLookup m a with
  | some x => if legalWord x then m else romStore m a (some w)
  | none => romStore m a (some w)

/-- The state whose next step is `ADVANCE slot` on the given word: the word fitted at `(row, slot)`, a legal prior word, both
ports of the slot driven, and `ADVANCE slot` requested next (log 20). -/
def fitFetchWord (s : State) (nbits w : Nat) : State :=
  match slotIndex? s.slot with
  | none => s
  | some i =>
    { s with
      rom :=
        romStoreIfIllegal
          (romStore s.rom (romAddress (fetchRow s i) i.val) (some (BitVec.ofNat 9 (w % 2 ^ nbits))))
          (romAddress (fetchRow s i) ((i.val : Int) - 1)) blankWord
      freqIn := s.freqIn.set i (drivenOrZero s.freqIn[i])
      ampIn := s.ampIn.set i (drivenOrZero s.ampIn[i])
      ops := .advance i.val :: s.ops }

/-- The moves of one frame with the inputs `freq`, `amp`, from index `i` on: each index is driven, then advanced
(42_host_interface.md R101, 70_reset_and_hazards.md R143). -/
def slotOps (freq amp : Vector Value 6) (i : OpIndex) : List HostOp :=
  [.drive i (some freq[i]) (some amp[i]), .advance i.val]

/-- The twelve moves of one frame, index 0 first (40_advance_datapath.md R86). -/
def frameOps (freq amp : Vector Value 6) : List HostOp :=
  slotOps freq amp 0 ++ slotOps freq amp 1 ++ slotOps freq amp 2 ++ slotOps freq amp 3 ++ slotOps freq amp 4 ++
    slotOps freq amp 5

end Sys2Proof.Machine
end

