-- ==== Sys2Proof/Machine/Step.lean ====
section
/-! DEFINITION. One step of the machine, and the state whose next step runs a given instruction word. -/

namespace Sys2Proof.Machine

/-- One step: the next requested move of an agent (log 8). -/
def step (s : State) : Host.Outcome State Fault Refusal := stepOp s

/-- `s` with the instruction word stored where the next step fetches, and everything else that step needs (log 20). -/
def State.withFetchWord (s : State) (nbits w : Nat) : State := fitFetchWord s nbits w

end Sys2Proof.Machine
end

