-- ==== Sys2Proof/Machine/Candidate.lean ====
section
/-! DEFINITION. The candidate ROM image of 45_rom_candidate_image.md: ONE NAMED VALUE of the parameter `ALG_ROM`, not normative,
not the repository's table (R115, 93_implementation_defined.md G1; log 24). Nothing in the machine uses it. -/

namespace Sys2Proof.Machine

/-- Rows 0 to 7 of the candidate, OP6 first. -/
def candidateRows0 : List RomWord :=
  [0x070, 0x050, 0x051, 0x008, 0x051, 0x158] ++
  [0x050, 0x050, 0x051, 0x148, 0x071, 0x018] ++
  [0x070, 0x051, 0x008, 0x050, 0x051, 0x158] ++
  [0x050, 0x051, 0x028, 0x050, 0x051, 0x158] ++
  [0x072, 0x008, 0x052, 0x018, 0x052, 0x158] ++
  [0x052, 0x028, 0x052, 0x018, 0x052, 0x158] ++
  [0x070, 0x008, 0x099, 0x008, 0x051, 0x158] ++
  [0x050, 0x148, 0x0B9, 0x008, 0x051, 0x018]

/-- Rows 8 to 15 of the candidate, OP6 first. -/
def candidateRows8 : List RomWord :=
  [0x050, 0x008, 0x099, 0x148, 0x071, 0x018] ++
  [0x008, 0x099, 0x148, 0x070, 0x051, 0x018] ++
  [0x028, 0x099, 0x008, 0x050, 0x051, 0x158] ++
  [0x008, 0x018, 0x099, 0x148, 0x071, 0x018] ++
  [0x028, 0x018, 0x099, 0x008, 0x051, 0x158] ++
  [0x028, 0x098, 0x051, 0x008, 0x051, 0x158] ++
  [0x008, 0x098, 0x051, 0x148, 0x071, 0x018] ++
  [0x070, 0x008, 0x050, 0x018, 0x098, 0x148]

/-- Rows 16 to 23 of the candidate, OP6 first. -/
def candidateRows16 : List RomWord :=
  [0x050, 0x008, 0x050, 0x158, 0x0B8, 0x008] ++
  [0x050, 0x050, 0x148, 0x038, 0x098, 0x008] ++
  [0x072, 0x10A, 0x018, 0x050, 0x052, 0x158] ++
  [0x008, 0x09A, 0x148, 0x072, 0x11A, 0x018] ++
  [0x04B, 0x0CB, 0x158, 0x073, 0x11B, 0x018] ++
  [0x073, 0x10B, 0x11B, 0x018, 0x053, 0x158] ++
  [0x073, 0x10B, 0x018, 0x053, 0x01B, 0x158] ++
  [0x074, 0x10C, 0x11C, 0x01C, 0x01C, 0x158]

/-- Rows 24 to 31 of the candidate, OP6 first. -/
def candidateRows24 : List RomWord :=
  [0x074, 0x10C, 0x01C, 0x01C, 0x01C, 0x158] ++
  [0x028, 0x09A, 0x008, 0x052, 0x01A, 0x158] ++
  [0x008, 0x09A, 0x148, 0x072, 0x01A, 0x018] ++
  [0x148, 0x070, 0x052, 0x018, 0x052, 0x01A] ++
  [0x073, 0x008, 0x053, 0x01B, 0x01B, 0x158] ++
  [0x148, 0x070, 0x053, 0x01B, 0x01B, 0x01B] ++
  [0x074, 0x00C, 0x01C, 0x01C, 0x01C, 0x158] ++
  [0x02D, 0x01D, 0x01D, 0x01D, 0x01D, 0x15D]

/-- The 192 words of the candidate, row 0 first (45_rom_candidate_image.md section 3). -/
def candidateWords : List RomWord := candidateRows0 ++ candidateRows8 ++ candidateRows16 ++ candidateRows24

/-- The candidate as an image (R115). -/
def candidateImage : Memory := romNumber 0 candidateWords

end Sys2Proof.Machine
end

