-- ==== Sys2Proof/Safety.lean ====
section
/-! DEFINITION. The terms claims use: when a slot is enabled, what a safe state is, and the real number an exact value denotes. -/

namespace Sys2Proof.Machine

/-- The real number an exact expression denotes: the reference semantics of `NUM` (00_scope.md R8, 40_advance_datapath.md
R82). An input denotes its whole part plus its digits behind the point, a free real number (log 28). -/
noncomputable def denote : Exact → ℝ
  | .rat q => (q : ℝ)
  | .pi => Real.pi
  | .input k => (Config.inputFloor k : ℝ) + Real.ofDigits (Config.inputDigit k)
  | .add x y => denote x + denote y
  | .mul x y => denote x * denote y
  | .sin x => Real.sin (denote x)

/-- `ADVANCE` at the index in `slot` is enabled and will not raise, whatever legal word stands there: no fault recorded, `slot`
holds `i`, both ports driven (with real numbers in the exact-real instance), and the prior word of the row in use is the legal
word `prior` (40_advance_datapath.md R70, R84; 42_host_interface.md R103). -/
structure Enabled (s : State) (i : OpIndex) (f amp : Value) (prior : Instr) : Prop where
  noFault : s.fault = .none
  atSlot : s.slot.toNat = i.val
  freqDriven : s.freqIn[i] = some f
  ampDriven : s.ampIn[i] = some amp
  freqReal : s.num = .exactReal → f.isReal = true
  ampReal : s.num = .exactReal → amp.isReal = true
  priorFetched : ∃ w,
    romLookup s.rom ((if i = 0 then s.algorithmIdPend else s.algorithmId).toNat * 6 + (i.val + 5) % 6) = some w ∧
      decode w = .ok prior

/-- What every run keeps of the control state: `slot` holds an operator index (10_state.md R15), `out_valid` is set only at a
frame boundary (R19), the ROM is in canonical form. -/
structure ControlLegal (s : State) : Prop where
  slotInRange : s.slot.toNat < 6
  outValidAtBoundary : s.outValid = true → s.slot = 0
  romCanonical : Memory.wf s.rom = true

/-- Every register of type `V` holds an element of the carrier, and what drives a port can stand there (00_scope.md R6,
10_state.md R23). -/
structure ValuesInCarrier (s : State) : Prop where
  phase : ∀ i : OpIndex, inCarrier s.num s.phase[i] = true
  mod : inCarrier s.num s.mod = true
  feedback0 : inCarrier s.num s.feedback0 = true
  feedback1 : inCarrier s.num s.feedback1 = true
  mem : inCarrier s.num s.mem = true
  feedbackLevel : inCarrier s.num s.feedbackLevel = true
  feedbackLevelPend : inCarrier s.num s.feedbackLevelPend = true
  freqIn : ∀ i : OpIndex, ∀ v, s.freqIn[i] = some v → presentable s.num v = true
  ampIn : ∀ i : OpIndex, ∀ v, s.ampIn[i] = some v → presentable s.num v = true

/-- Nothing sounds: the signal registers other than the phases hold zero, and every amplitude port is undriven or driven with
zero (95_test_vectors.md V-RST). -/
structure Silent (s : State) : Prop where
  mod : s.mod = Value.zero
  mem : s.mem = Value.zero
  feedback0 : s.feedback0 = Value.zero
  feedback1 : s.feedback1 = Value.zero
  ampIn : ∀ i : OpIndex, s.ampIn[i] = none ∨ s.ampIn[i] = some Value.zero

/-- A run of a well-behaved host is safe while no fault is recorded (60_exceptions.md R125). -/
def Safe (s : State) : Prop := s.fault = .none

/-- The inputs of one frame that the engine takes without raising: values that can be driven, real numbers in the exact-real
instance (42_host_interface.md R109). -/
def FrameInputs (k : NumKind) (freq amp : Vector Value 6) : Prop :=
  ∀ i : OpIndex, inCarrier k freq[i] = true ∧ inCarrier k amp[i] = true

end Sys2Proof.Machine
end

