-- ==== Sys2Proof/Certificates/Slice0/Obligations.lean ====
section
/-! DEFINITION. The statements about the machine. Each says which rule of spec/ it formalises. The formulas of the rules are
written out here over the operations of `NUM`, apart from the definitions of the machine they are compared with. -/

namespace Sys2Proof.Claims

open Sys2Proof Sys2Proof.Machine

/-- 40_advance_datapath.md R72: `p <- phase[i] + f ; if p > 1 then p <- p - 2`. -/
def phaseOf (s : State) (i : OpIndex) (f : Value) : Value :=
  let p := numAdd s.num s.phase[i] f
  if numGt s.num p (.lit 1) = true then numSub s.num p (.lit 2) else p

/-- 40_advance_datapath.md R74: `sin(PI * (p + K_MOD * mod)) * amp * (1 / (prior.com + 1))`, left to right. -/
def sampleAt (s : State) (i : OpIndex) (f amp : Value) (prior : Instr) : Value :=
  numMul s.num
    (numMul s.num
      (numSin s.num (numMul s.num (numPi s.num) (numAdd s.num (phaseOf s i f) (numMul s.num (numOfRat s.num (77 / 20)) s.mod))))
      amp)
    (numRecip s.num (prior.com.toNat + 1))

/-- 40_advance_datapath.md R77 for `MIX_MODE = multiply`; the form for `select` (92_eei_decisions.md D13, 93_implementation_defined.md
U6) is the model's (log 18). -/
def mixOf (s : State) (c d : Bool) (sample : Value) : Value :=
  if s.mixMode = .multiply then
    numAdd s.num (numMul s.num (if c then .lit 1 else .lit 0) s.mem) (numMul s.num (if d then .lit 1 else .lit 0) sample)
  else if c then (if d then numAdd s.num s.mem sample else s.mem)
  else (if d then sample else .lit 0)

/-- `feedback[0]` after step 4 (40_advance_datapath.md R76). -/
def tap0Of (s : State) (a : Bool) (sample : Value) : Value := if a then sample else s.feedback0

/-- `feedback[1]` after step 4 (40_advance_datapath.md R76). -/
def tap1Of (s : State) (a : Bool) : Value := if a then s.feedback0 else s.feedback1

/-- `feedbackLevel` as the slot of index `i` uses it (40_advance_datapath.md R71). -/
def levelOf (s : State) (i : OpIndex) : Value := if i = 0 then s.feedbackLevelPend else s.feedbackLevel

/-- The state after an enabled slot that writes `m` to `mod`: 40_advance_datapath.md R70, with everything it leaves unchanged
(R85, which the spec marks derived). What it gives `mem` under `MIX_MODE = select` is the model's (log 18). -/
def slotResult (s : State) (i : OpIndex) (f amp : Value) (prior : Instr) (a c d : Bool) (m : Value) : State :=
  { s with
    algorithmId := if i = 0 then s.algorithmIdPend else s.algorithmId
    feedbackLevel := levelOf s i
    phase := s.phase.set i (phaseOf s i f)
    feedback0 := tap0Of s a (sampleAt s i f amp prior)
    feedback1 := tap1Of s a
    mod := m
    mem := mixOf s c d (sampleAt s i f amp prior)
    outValid := decide (i.val = 5)
    slot := BitVec.ofNat 3 ((i.val + 1) % 6) }

/-- A datum that is infinite or not a number (40_advance_datapath.md R83). -/
def NotFinite (v : Value) : Prop := v = .nan ∨ ∃ b, v = .inf b

/-- A finite number of a binary format, written without rounding: a whole number of at most `precision` binary digits times a
power of two in the range of the format (IEEE 754, from general knowledge: 93_implementation_defined.md G3; log 4). -/
def IsFormatNumber (fmt : FloatFormat) (r : ℚ) : Prop :=
  ∃ m t : ℤ, r = m * 2 ^ t ∧ |m| < 2 ^ fmt.precision ∧ fmt.emin - ((fmt.precision : ℤ) - 1) ≤ t ∧
    t ≤ fmt.emax - ((fmt.precision : ℤ) - 1)

/-- The row a slot of index `i` uses (40_advance_datapath.md R70). -/
def rowOf (s : State) (i : OpIndex) : BitVec 5 := if i = 0 then s.algorithmIdPend else s.algorithmId

/-- The word of linear address `row * 6 + index` (20_memory.md R30). -/
def wordAt (s : State) (row : BitVec 5) (index : OpIndex) : Option RomWord := romLookup s.rom (row.toNat * 6 + index.val)

end Sys2Proof.Claims

open Sys2Proof Sys2Proof.Machine Sys2Proof.Claims

/-! ### Encoding -/

/-- 30_encoding.md R50, R55, R57, R59 and 95_test_vectors.md V-ENC: words written out from the fields. -/
def Obligations.DecodeOfWrittenWords : Prop :=
  decode 0b000010000#9 = .ok (.none false true false 0) ∧
  decode 0b001110000#9 = .ok (.self true true false 0) ∧
  decode 0b010111001#9 = .ok (.mem true true true 1) ∧
  decode 0b011001011#9 = .ok (.pmem false false true 3) ∧
  decode 0b100001101#9 = .ok (.fb false false true 5) ∧
  decode 0b101011000#9 = .ok (.fbmix false true true 0) ∧
  decode 0b001000110#9 = .error (.reservedCom 6) ∧
  decode 0b110000000#9 = .error (.reservedSelector 6)

/-- 30_encoding.md R56: encoding and decoding are inverse, on legal words and on legal descriptors. -/
def Obligations.DecodeEncodeAgree : Prop :=
  ∀ (w : RomWord) (i : Instr), decode w = .ok i ↔ i.wf = true ∧ encode i = w

/-- 30_encoding.md R57, 41_selector_instructions.md R97: exactly the words with `sel` or `com` in 6, 7 are refused. -/
def Obligations.ReservedWordsRefused : Prop :=
  ∀ w : RomWord, legalWord w = true ↔ w.toNat / 64 ≤ 5 ∧ w.toNat % 8 ≤ 5

/-! ### Algorithm ROM -/

/-- 20_memory.md R31: `RomRead` on a well-formed image cannot fail, gives the descriptor stored at `(alg, idx mod 6)`, and so the
same for `idx` and `idx mod 6`. -/
def Obligations.RomReadTotalModuloSix : Prop :=
  ∀ (m : Memory) (alg : BitVec 5) (idx : Int), wellFormedImage m = true →
    ∃ w i, romLookup m (alg.toNat * 6 + (idx % 6).toNat) = some w ∧ decode w = .ok i ∧ i.wf = true ∧
      romRead m alg idx = some w ∧ romDescriptor m alg idx = some i ∧ romDescriptor m alg (idx % 6) = some i

/-- 20_memory.md R34, R46: no step of any agent writes the ROM, nor the other configuration (that the configuration stands in
State is the model's choice, log 1, 7, 18). -/
def Obligations.StepKeepsConfiguration : Prop :=
  ∀ s t : State, step s = .next t → t.rom = s.rom ∧ t.num = s.num ∧ t.mixMode = s.mixMode

/-- 60_exceptions.md R124: with a well-formed image `F_ROM_RESERVED` is never recorded. -/
def Obligations.WellFormedImageNeverReserved : Prop :=
  ∀ s t : State, wellFormedImage s.rom = true → step s = .next t →
    (∀ row k w, s.fault ≠ .romReserved row k w) → ∀ row k w, t.fault ≠ .romReserved row k w

/-! ### The common step -/

/-- 40_advance_datapath.md R70, R84, R85, 41_selector_instructions.md R96: every instruction, when its slot is enabled, completes
with the common effect; only the value written to `mod` is left to the instruction. This is also the frame of all six. The value
of `mem` under `MIX_MODE = select` is the model's choice (log 18; D13, U6): R70 has the products only. -/
def Obligations.EveryInstructionPerformsCommonStep : Prop :=
  ∀ (instr : Instr) (s : State) (i : OpIndex) (f amp : Value) (prior : Instr),
    Enabled s i f amp prior → instr.wf = true →
    ∃ m, exec instr s = .next (slotResult s i f amp prior instr.a instr.c instr.d m)

/-- 40_advance_datapath.md R72: only `phase[i]` changes, by one addition and one conditional subtraction. -/
def Obligations.PhaseAccumulates : Prop :=
  ∀ (instr : Instr) (s : State) (i : OpIndex) (f amp : Value) (prior : Instr),
    Enabled s i f amp prior → instr.wf = true →
    ∃ t p, exec instr s = .next t ∧ p = numAdd s.num s.phase[i] f ∧
      t.phase = s.phase.set i (if numGt s.num p (.lit 1) = true then numSub s.num p (.lit 2) else p)

/-- 40_advance_datapath.md R76: the capture, with the older tap discarded; with `a = 0` the pair is unchanged. -/
def Obligations.FeedbackCapture : Prop :=
  ∀ (instr : Instr) (s : State) (i : OpIndex) (f amp : Value) (prior : Instr),
    Enabled s i f amp prior → instr.wf = true →
    ∃ t, exec instr s = .next t ∧
      (instr.a = true → t.feedback0 = sampleAt s i f amp prior ∧ t.feedback1 = s.feedback0) ∧
      (instr.a = false → t.feedback0 = s.feedback0 ∧ t.feedback1 = s.feedback1)

/-- 40_advance_datapath.md R77: `newMemory <- (int_to_V(c) * mem) + (int_to_V(d) * sample)`, stored in `mem`. -/
def Obligations.MemoryRecurrence : Prop :=
  ∀ (instr : Instr) (s : State) (i : OpIndex) (f amp : Value) (prior : Instr),
    Enabled s i f amp prior → instr.wf = true → s.mixMode = .multiply →
    ∃ t, exec instr s = .next t ∧
      t.mem = numAdd s.num (numMul s.num (if instr.c then .lit 1 else .lit 0) s.mem)
        (numMul s.num (if instr.d then .lit 1 else .lit 0) (sampleAt s i f amp prior))

/-- 40_advance_datapath.md R79, R77: `mem <- newMemory`, `out_valid <- (i == 5)`, `slot <- (i + 1) mod 6`. The `newMemory` of
`MIX_MODE = select` is the model's choice (log 18; D13, U6). -/
def Obligations.CommitAndBookkeeping : Prop :=
  ∀ (instr : Instr) (s : State) (i : OpIndex) (f amp : Value) (prior : Instr),
    Enabled s i f amp prior → instr.wf = true →
    ∃ t, exec instr s = .next t ∧ t.mem = mixOf s instr.c instr.d (sampleAt s i f amp prior) ∧
      (t.outValid = true ↔ i.val = 5) ∧ t.slot.toNat = (i.val + 1) % 6

/-- 40_advance_datapath.md R71: the latch, at slot 0 and at no other. -/
def Obligations.LatchAtSlotZeroOnly : Prop :=
  ∀ (instr : Instr) (s : State) (i : OpIndex) (f amp : Value) (prior : Instr),
    Enabled s i f amp prior → instr.wf = true →
    ∃ t, exec instr s = .next t ∧ t.algorithmIdPend = s.algorithmIdPend ∧ t.feedbackLevelPend = s.feedbackLevelPend ∧
      (i.val = 0 → t.algorithmId = s.algorithmIdPend ∧ t.feedbackLevel = s.feedbackLevelPend) ∧
      (i.val ≠ 0 → t.algorithmId = s.algorithmId ∧ t.feedbackLevel = s.feedbackLevel)

/-! ### The six instructions -/

/-- 41_selector_instructions.md R90, with its encoding `000acdmmm`. The rest of the
next state, the frame among it, is 40_advance_datapath.md R70 and R85; `mem` under `MIX_MODE = select` is the model's (log 18). -/
def Obligations.NoneWritesZeroToMod : Prop :=
  ∀ (a c d : Bool) (com : BitVec 3), com.toNat ≤ 5 →
    (encode (.none a c d com)).toNat = 0x000 + 32 * a.toNat + 16 * c.toNat + 8 * d.toNat + com.toNat ∧
    ∀ (s : State) (i : OpIndex) (f amp : Value) (prior : Instr), Enabled s i f amp prior →
      exec (.none a c d com) s = .next (slotResult s i f amp prior a c d (.lit 0))

/-- 41_selector_instructions.md R91, with its encoding `001acdmmm`. The rest of the
next state, the frame among it, is 40_advance_datapath.md R70 and R85; `mem` under `MIX_MODE = select` is the model's (log 18). -/
def Obligations.SelfWritesSampleToMod : Prop :=
  ∀ (a c d : Bool) (com : BitVec 3), com.toNat ≤ 5 →
    (encode (.self a c d com)).toNat = 0x040 + 32 * a.toNat + 16 * c.toNat + 8 * d.toNat + com.toNat ∧
    ∀ (s : State) (i : OpIndex) (f amp : Value) (prior : Instr), Enabled s i f amp prior →
      exec (.self a c d com) s = .next (slotResult s i f amp prior a c d (sampleAt s i f amp prior))

/-- 41_selector_instructions.md R92, with its encoding `010acdmmm`: `mod` and `mem` get the same value. The rest of the
next state, the frame among it, is 40_advance_datapath.md R70 and R85; `mem` under `MIX_MODE = select` is the model's (log 18). -/
def Obligations.MemWritesNewMemoryToMod : Prop :=
  ∀ (a c d : Bool) (com : BitVec 3), com.toNat ≤ 5 →
    (encode (.mem a c d com)).toNat = 0x080 + 32 * a.toNat + 16 * c.toNat + 8 * d.toNat + com.toNat ∧
    ∀ (s : State) (i : OpIndex) (f amp : Value) (prior : Instr), Enabled s i f amp prior →
      exec (.mem a c d com) s =
        .next (slotResult s i f amp prior a c d (mixOf s c d (sampleAt s i f amp prior)))

/-- 41_selector_instructions.md R93, with its encoding `011acdmmm`: `mem` as it was before the slot. The rest of the
next state, the frame among it, is 40_advance_datapath.md R70 and R85; `mem` under `MIX_MODE = select` is the model's (log 18). -/
def Obligations.PmemWritesOldMemToMod : Prop :=
  ∀ (a c d : Bool) (com : BitVec 3), com.toNat ≤ 5 →
    (encode (.pmem a c d com)).toNat = 0x0C0 + 32 * a.toNat + 16 * c.toNat + 8 * d.toNat + com.toNat ∧
    ∀ (s : State) (i : OpIndex) (f amp : Value) (prior : Instr), Enabled s i f amp prior →
      exec (.pmem a c d com) s = .next (slotResult s i f amp prior a c d s.mem)

/-- 41_selector_instructions.md R94, with its encoding `100acdmmm`: `feedback[0]` after the capture. The rest of the
next state, the frame among it, is 40_advance_datapath.md R70 and R85; `mem` under `MIX_MODE = select` is the model's (log 18). -/
def Obligations.FbWritesNewestTapToMod : Prop :=
  ∀ (a c d : Bool) (com : BitVec 3), com.toNat ≤ 5 →
    (encode (.fb a c d com)).toNat = 0x100 + 32 * a.toNat + 16 * c.toNat + 8 * d.toNat + com.toNat ∧
    ∀ (s : State) (i : OpIndex) (f amp : Value) (prior : Instr), Enabled s i f amp prior →
      exec (.fb a c d com) s = .next (slotResult s i f amp prior a c d (tap0Of s a (sampleAt s i f amp prior)))

/-- 41_selector_instructions.md R95, with its encoding `101acdmmm`: `(feedbackLevel * (feedback'[0] + feedback'[1])) * (1/6)`. The
rest of the next state, the frame among it, is 40_advance_datapath.md R70 and R85; `mem` under `MIX_MODE = select` is the model's (log 18). -/
def Obligations.FbmixWritesBlendToMod : Prop :=
  ∀ (a c d : Bool) (com : BitVec 3), com.toNat ≤ 5 →
    (encode (.fbmix a c d com)).toNat = 0x140 + 32 * a.toNat + 16 * c.toNat + 8 * d.toNat + com.toNat ∧
    ∀ (s : State) (i : OpIndex) (f amp : Value) (prior : Instr), Enabled s i f amp prior →
      exec (.fbmix a c d com) s =
        .next (slotResult s i f amp prior a c d
          (numMul s.num (numMul s.num (levelOf s i)
            (numAdd s.num (tap0Of s a (sampleAt s i f amp prior)) (tap1Of s a))) (numRecip s.num 6)))

/-- 41_selector_instructions.md R95, 90_conflicts.md C12: in the exact-real instance a zero level makes `FBMIX` write zero. -/
def Obligations.ZeroLevelSilencesFbmix : Prop :=
  ∀ (a c d : Bool) (com : BitVec 3) (s : State) (i : OpIndex) (f amp : Value) (prior : Instr),
    com.toNat ≤ 5 → Enabled s i f amp prior → s.num = .exactReal → ValuesInCarrier s → levelOf s i = .lit 0 →
    ∃ t, exec (.fbmix a c d com) s = .next t ∧ t.mod = .lit 0

/-! ### Noninterference -/

/-- 20_memory.md R33: the `com` field of a word is not used by its own slot. -/
def Obligations.OwnComUnused : Prop :=
  ∀ (a c d : Bool) (com com' : BitVec 3) (s : State), com.toNat ≤ 5 → com'.toNat ≤ 5 →
    exec (.none a c d com) s = exec (.none a c d com') s ∧ exec (.self a c d com) s = exec (.self a c d com') s ∧
    exec (.mem a c d com) s = exec (.mem a c d com') s ∧ exec (.pmem a c d com) s = exec (.pmem a c d com') s ∧
    exec (.fb a c d com) s = exec (.fb a c d com') s ∧ exec (.fbmix a c d com) s = exec (.fbmix a c d com') s

/-- 40_advance_datapath.md R80: nothing in a slot reads a phase other than `phase[i]`. -/
def Obligations.OtherPhasesUnread : Prop :=
  ∀ (instr : Instr) (s t : State) (j : OpIndex) (v : Value), s.slot.toNat ≠ j.val → exec instr s = .next t →
    exec instr { s with phase := s.phase.set j v } = .next { t with phase := t.phase.set j v }

/-- 20_memory.md R41 (c), 70_reset_and_hazards.md R146: what the pending registers hold in mid-frame changes nothing of the
frame in progress. -/
def Obligations.MidFrameControlInvisible : Prop :=
  ∀ (instr : Instr) (s t : State) (id : BitVec 5) (v : Value), s.slot ≠ 0 → exec instr s = .next t →
    exec instr { s with algorithmIdPend := id, feedbackLevelPend := v } =
      .next { t with algorithmIdPend := id, feedbackLevelPend := v }

/-! ### Numerics -/

/-- 40_advance_datapath.md R72, R74 in the reference instance: the phase and the sample denote the formulas of the source over the
reals, with the wrap decided by the real order. -/
def Obligations.ExactSampleDenotesFormula : Prop :=
  ∀ (a c d : Bool) (com : BitVec 3) (s : State) (i : OpIndex) (x g m am : Exact) (prior : Instr), com.toNat ≤ 5 →
    s.num = .exactReal → s.phase[i] = .fin x → s.mod = .fin m → Enabled s i (.fin g) (.fin am) prior →
    ∃ t y z, exec (.self a c d com) s = .next t ∧ t.phase[i] = .fin y ∧ t.mod = .fin z ∧
      (denote x + denote g ≤ 1 ∧ denote y = denote x + denote g ∨
        1 < denote x + denote g ∧ denote y = denote x + denote g - 2) ∧
      denote z = Real.sin (Real.pi * (denote y + 3.85 * denote m)) * denote am * (1 / ((prior.com.toNat : ℝ) + 1))

/-- 40_advance_datapath.md R75: wrap transparency, the bound and oddness of the sample, over the reals. -/
def Obligations.ExactSampleLaws : Prop :=
  ∀ (p m am z : Exact) (com : BitVec 3), sampleOf .exactReal (.fin p) (.fin m) (.fin am) com = .fin z →
    |denote z| ≤ |denote am| / ((com.toNat : ℝ) + 1) ∧
    (∀ z', sampleOf .exactReal (.fin (exactSub p (.rat 2))) (.fin m) (.fin am) com = .fin z' → denote z' = denote z) ∧
    (∀ p' m' z', denote p' = -denote p → denote m' = -denote m →
      sampleOf .exactReal (.fin p') (.fin m') (.fin am) com = .fin z' → denote z' = -denote z)

/-- 41_selector_instructions.md R95 in the reference instance: what `FBMIX` writes denotes a sixth of the level times the sum of
the taps as the capture left them. -/
def Obligations.ExactFbmixDenotesBlend : Prop :=
  ∀ (a c d : Bool) (com : BitVec 3) (s : State) (i : OpIndex) (f amp : Value) (prior : Instr), com.toNat ≤ 5 →
    s.num = .exactReal → ValuesInCarrier s → Enabled s i f amp prior →
    ∃ t u0 u1 l z, exec (.fbmix a c d com) s = .next t ∧ t.feedback0 = .fin u0 ∧ t.feedback1 = .fin u1 ∧
      t.feedbackLevel = .fin l ∧ t.mod = .fin z ∧ denote z = denote l * (denote u0 + denote u1) * (1 / 6)

/-- 10_state.md R26, which the spec marks derived: the phase range, in the reference instance, for every real phase and
increment. -/
def Obligations.PhaseStaysInRange : Prop :=
  ∀ (instr : Instr) (s : State) (i : OpIndex) (x g : Exact) (amp : Value) (prior : Instr),
    Enabled s i (.fin g) amp prior → instr.wf = true → s.num = .exactReal → s.phase[i] = .fin x →
    -1 < denote x → denote x ≤ 1 → -1 < denote x + denote g → denote x + denote g ≤ 3 →
    ∃ t y, exec instr s = .next t ∧ t.phase[i] = .fin y ∧ -1 < denote y ∧ denote y ≤ 1 ∧
      (denote x + denote g ≤ 1 ∧ denote y = denote x + denote g ∨
        1 < denote x + denote g ∧ denote y = denote x + denote g - 2)

/-- 30_encoding.md R53, 93_implementation_defined.md U6: on real operands both values of `MIX_MODE` give the table of mixes (the
select form is the model's, log 18). -/
def Obligations.ExactMixTable : Prop :=
  ∀ (mode : MixMode) (m x : Exact),
    newMemoryOf .exactReal mode false false (.fin m) (.fin x) = .lit 0 ∧
    newMemoryOf .exactReal mode true false (.fin m) (.fin x) = .fin m ∧
    newMemoryOf .exactReal mode false true (.fin m) (.fin x) = .fin x ∧
    newMemoryOf .exactReal mode true true (.fin m) (.fin x) = numAdd .exactReal (.fin m) (.fin x)

/-- 30_encoding.md R54, 95_test_vectors.md S7: the attenuation factors, exactly. -/
def Obligations.ExactAttenuationTable : Prop :=
  ∀ com : BitVec 3, com.toNat ≤ 5 → attenuation .exactReal com = .lit (1 / ((com.toNat : ℚ) + 1))

/-- 40_advance_datapath.md R83, 60_exceptions.md R126, the consequences in a floating instance, through every instruction: a
frequency or a phase that is infinite or not a number makes the phase so; with such a frequency, phase or `mod`, or a
not-a-number amplitude, the sample is not a number, whatever the other operands; an infinite amplitude makes it infinite or
not a number; the capture, the router and, with products, `mem` take it; with products a not-a-number `mem` stays so for every
mix; `NONE` still writes zero to `mod`. -/
def Obligations.NotANumberPropagates : Prop :=
  ∀ (instr : Instr) (s : State) (i : OpIndex) (f amp : Value) (prior : Instr),
    Enabled s i f amp prior → instr.wf = true → s.num ≠ .exactReal →
    ∃ t, exec instr s = .next t ∧ (s.mixMode = .multiply → s.mem = .nan → t.mem = .nan) ∧
      (f = .nan ∨ s.phase[i] = .nan → t.phase[i] = .nan) ∧
      (NotFinite f ∨ NotFinite s.phase[i] → NotFinite t.phase[i]) ∧
      (NotFinite f ∨ NotFinite s.phase[i] ∨ NotFinite s.mod ∨ amp = .nan →
        sampleAt s i f amp prior = .nan ∧ (s.mixMode = .multiply → t.mem = .nan) ∧
        (instr.a = true → t.feedback0 = .nan) ∧ (instr.sel = 1 → t.mod = .nan)) ∧
      (NotFinite amp →
        NotFinite (sampleAt s i f amp prior) ∧ (s.mixMode = .multiply → NotFinite t.mem) ∧
        (instr.a = true → NotFinite t.feedback0) ∧ (instr.sel = 1 → NotFinite t.mod)) ∧
      (instr.sel = 0 → t.mod = .lit 0)

/-- 40_advance_datapath.md R83, the rules of IEEE 754 that the spec supplies: what the operations of a floating instance do with
infinities and not-a-number. The signs of infinite results and the order of the infinities are from general knowledge
(93_implementation_defined.md G3; log 4). -/
def Obligations.NonFiniteOperations : Prop :=
  ∀ k : NumKind, k ≠ .exactReal →
    (∀ x, numAdd k .nan x = .nan ∧ numAdd k x .nan = .nan ∧ numSub k .nan x = .nan ∧ numSub k x .nan = .nan ∧
      numMul k .nan x = .nan ∧ numMul k x .nan = .nan ∧ numGt k .nan x = false ∧ numGt k x .nan = false) ∧
    numSin k .nan = .nan ∧
    (∀ b c, numAdd k (.inf b) (.inf !b) = .nan ∧ numAdd k (.inf b) (.inf b) = .inf b ∧ numSub k (.inf b) (.inf b) = .nan ∧
      numMul k (.inf b) (.inf c) = .inf (b != c) ∧ numSin k (.inf b) = .nan) ∧
    (∀ b x q, floatRat? x = some q →
      numAdd k (.inf b) x = .inf b ∧ numAdd k x (.inf b) = .inf b ∧
      (q = 0 → numMul k (.inf b) x = .nan ∧ numMul k x (.inf b) = .nan) ∧
      (q ≠ 0 → numMul k (.inf b) x = .inf (b != decide (q < 0)) ∧ numMul k x (.inf b) = .inf (b != decide (q < 0))) ∧
      (numGt k (.inf b) x = true ↔ b = false) ∧ (numGt k x (.inf b) = true ↔ b = true))

/-- 40_advance_datapath.md R82, 92_eei_decisions.md D1, 93_implementation_defined.md G3: the finite elements of a floating carrier
are the numbers of its format, and every number below the overflow threshold rounds to a nearest one of them, of two nearest ones
to the even one (an even number of times the gap between them), and to a zero with its own sign, that of an exact zero being
given. The formats are from general knowledge (log 4). -/
def Obligations.RoundingIsNearest : Prop :=
  ∀ (k : NumKind) (fmt : FloatFormat), k.format? = some fmt →
    (∀ r : ℚ, inCarrier k (.lit r) = true ↔ IsFormatNumber fmt r) ∧
    ∀ (z : Bool) (q : ℚ), |q| < 2 ^ (fmt.emax + 1) - 2 ^ (fmt.emax - fmt.precision) →
      ∃ r, floatRat? (roundTo fmt z q) = some r ∧ IsFormatNumber fmt r ∧
        (∀ r', IsFormatNumber fmt r' →
          |r - q| ≤ |r' - q| ∧ (r' ≠ r → |r - q| = |r' - q| → ∃ j : ℤ, r = 2 * j * |r' - r|)) ∧
        (r = 0 → (roundTo fmt z q = .negZero ↔ q < 0 ∨ q = 0 ∧ z = true))

/-- 40_advance_datapath.md R82, 93_implementation_defined.md G3: a result rounds to an infinity of its sign exactly from half a unit
above the largest finite number of the format on (log 4). -/
def Obligations.OverflowToInfinity : Prop :=
  ∀ (k : NumKind) (fmt : FloatFormat) (z b : Bool) (q : ℚ), k.format? = some fmt →
    (roundTo fmt z q = .inf b ↔ (2 : ℚ) ^ (fmt.emax + 1) - 2 ^ (fmt.emax - fmt.precision) ≤ |q| ∧ (b = true ↔ q < 0))

/-- 40_advance_datapath.md R82: on finite data each operation of a floating instance is the exact operation rounded once. The sign of
an exact zero, a negative zero only as the sum of two, is from general knowledge (log 4). -/
def Obligations.FloatOperationsRound : Prop :=
  ∀ (k : NumKind) (fmt : FloatFormat) (x y : Value) (p q : ℚ), k.format? = some fmt → floatRat? x = some p →
    floatRat? y = some q →
    numAdd k x y = roundTo fmt (decide (x = .negZero ∧ y = .negZero)) (p + q) ∧
    numSub k x y = roundTo fmt (decide (x = .negZero ∧ y = .lit 0)) (p - q) ∧
    numMul k x y = roundTo fmt (floatNeg x != floatNeg y) (p * q) ∧
    (numGt k x y = true ↔ p > q) ∧
    ∀ n : Nat, numRecip k n = roundTo fmt false (1 / (n : ℚ))

/-- 93_implementation_defined.md U8: the sine of a floating instance of a finite argument is an element of the format in `[-1, 1]`.
Its value is free (log 5). -/
def Obligations.FloatSineInUnitRange : Prop :=
  ∀ (k : NumKind) (x : Value) (p : ℚ), k ≠ .exactReal → floatRat? x = some p →
    ∃ r, floatRat? (numSin k x) = some r ∧ inCarrier k (numSin k x) = true ∧ -1 ≤ r ∧ r ≤ 1

/-- 00_scope.md R8, 40_advance_datapath.md R82: in the reference instance the operations are those of the real numbers, and `>` is
their order, also where a value comes from outside and may be any real number (log 3, 28). -/
def Obligations.ExactOperationsAreReal : Prop :=
  ∀ x y : Exact, ∃ a b c e : Exact,
    numAdd .exactReal (.fin x) (.fin y) = .fin a ∧ denote a = denote x + denote y ∧
    numSub .exactReal (.fin x) (.fin y) = .fin b ∧ denote b = denote x - denote y ∧
    numMul .exactReal (.fin x) (.fin y) = .fin c ∧ denote c = denote x * denote y ∧
    numSin .exactReal (.fin x) = .fin e ∧ denote e = Real.sin (denote x) ∧
    (numGt .exactReal (.fin x) (.fin y) = true ↔ denote x > denote y)

/-- 00_scope.md R8: the constant `PI` of the binary formats is within half a unit of its last digit of the circle constant, and
is the circle constant in the reference instance (the two numbers are the model's, log 23). -/
def Obligations.PiConstants : Prop :=
  (∃ r : ℚ, numPi .binary32 = .lit r ∧ inCarrier .binary32 (.lit r) = true ∧ |(r : ℝ) - Real.pi| < 1 / 2 ^ 23) ∧
  (∃ r : ℚ, numPi .binary64 = .lit r ∧ inCarrier .binary64 (.lit r) = true ∧ |(r : ℝ) - Real.pi| < 1 / 2 ^ 52) ∧
  (∃ x, numPi .exactReal = .fin x ∧ denote x = Real.pi)

/-! ### Faults -/

/-- 60_exceptions.md R121: the codes. -/
def Obligations.FaultCodes : Prop :=
  FaultRecord.none.code = 0 ∧ (∀ i s, (FaultRecord.slotOrder i s).code = 1) ∧ (∀ id, (FaultRecord.algRange id).code = 2) ∧
  (∀ r k w, (FaultRecord.romReserved r k w).code = 3) ∧ (∀ p v, (FaultRecord.nonFinite p v).code = 4)

/-- 60_exceptions.md R122: an operand that is out of range or not the next index records `F_SLOT_ORDER` and changes nothing else
(the request is taken from the list of moves). -/
def Obligations.SlotOrderRaised : Prop :=
  ∀ (s : State) (n : Int) (rest : List HostOp), s.ops = .advance n :: rest → s.fault = .none →
    (n < 0 ∨ 5 < n ∨ n ≠ (s.slot.toNat : Int)) →
    step s = .next { s with ops := rest, fault := .slotOrder n s.slot }

/-- 60_exceptions.md R124, R129: a reserved descriptor word, else a reserved prior word, records `F_ROM_RESERVED` with the row
the frame uses, before any other write. -/
def Obligations.ReservedWordRaised : Prop :=
  ∀ (s : State) (i : OpIndex) (rest : List HostOp) (f amp : Value),
    s.ops = .advance i.val :: rest → s.fault = .none → s.slot.toNat = i.val →
    s.freqIn[i] = some f → s.ampIn[i] = some amp → (s.num = .exactReal → f.isReal = true ∧ amp.isReal = true) →
    (∀ w, wordAt s (rowOf s i) i = some w → legalWord w = false →
      step s = .next { s with ops := rest, fault := .romReserved (rowOf s i) i w }) ∧
    (∀ w v, wordAt s (rowOf s i) i = some v → legalWord v = true →
      wordAt s (rowOf s i) (i + 5) = some w → legalWord w = false →
      step s = .next { s with ops := rest, fault := .romReserved (rowOf s i) (i + 5) w })

/-- 60_exceptions.md R126, R129: in the exact-real instance a non-finite frequency, else a non-finite amplitude, records
`F_NONFINITE`, whatever stands in the ROM. -/
def Obligations.NonFiniteInputRaised : Prop :=
  ∀ (s : State) (i : OpIndex) (rest : List HostOp) (f amp : Value),
    s.ops = .advance i.val :: rest → s.fault = .none → s.slot.toNat = i.val → s.num = .exactReal →
    s.freqIn[i] = some f → s.ampIn[i] = some amp →
    ((f = .nan ∨ ∃ n, f = .inf n) → step s = .next { s with ops := rest, fault := .nonFinite (.freqIn i) f }) ∧
    (f.isReal = true → (amp = .nan ∨ ∃ n, amp = .inf n) →
      step s = .next { s with ops := rest, fault := .nonFinite (.ampIn i) amp })

/-- 60_exceptions.md R125: while a fault is recorded no `ADVANCE` has an effect, `RDOUT` is refused, `WRALG` and `WRFBL` still
write the pending registers and nothing else, driving changes ports only, and no move but reset changes the record or any other
register of the engine. That the request of such an `ADVANCE` is used up (log 11), that a refused read is an answer after which
the run goes on (log 12), and that an id out of range or a non-finite level changes nothing, the first record standing (log 14),
are the model's. -/
def Obligations.RecordedFaultIsSticky : Prop :=
  ∀ (s : State) (rest : List HostOp), s.fault ≠ .none →
    (∀ n, s.ops = .advance n :: rest → step s = .next { s with ops := rest }) ∧
    (s.ops = .rdout :: rest → step s = .next { s with ops := rest, answers := .refused :: s.answers }) ∧
    (∀ v : Int, 0 ≤ v → v < 32 → s.ops = .wralg v :: rest →
      step s = .next { s with ops := rest, algorithmIdPend := BitVec.ofInt 5 v }) ∧
    (∀ v : Int, v < 0 ∨ 32 ≤ v → s.ops = .wralg v :: rest → step s = .next { s with ops := rest }) ∧
    (∀ v, inCarrier s.num v = true → s.ops = .wrfbl v :: rest →
      step s = .next { s with ops := rest, feedbackLevelPend := v }) ∧
    (∀ v, s.num = .exactReal → NotFinite v → s.ops = .wrfbl v :: rest → step s = .next { s with ops := rest }) ∧
    (∀ i f a t, s.ops = .drive i f a :: rest → step s = .next t →
      t = { s with ops := rest, freqIn := s.freqIn.set i f, ampIn := s.ampIn.set i a }) ∧
    (∀ op t, op ≠ .reset → s.ops = op :: rest → step s = .next t →
      t.fault = s.fault ∧ t.phase = s.phase ∧ t.mod = s.mod ∧ t.feedback0 = s.feedback0 ∧ t.feedback1 = s.feedback1 ∧
      t.mem = s.mem ∧ t.algorithmId = s.algorithmId ∧ t.feedbackLevel = s.feedbackLevel ∧ t.slot = s.slot ∧
      t.outValid = s.outValid)

/-! ### Reset -/

/-- 10_state.md R25: the reset value of every element of the engine's state. -/
def Obligations.ResetValues : Prop :=
  ∀ (k : NumKind) (mode : MixMode) (m : Memory) (r : State), r = State.powerUp k mode m ∨ r = State.reset →
    (∀ i : OpIndex, r.phase[i] = .lit 0) ∧ r.mod = .lit 0 ∧ r.feedback0 = .lit 0 ∧ r.feedback1 = .lit 0 ∧ r.mem = .lit 0 ∧
    r.algorithmId = 0 ∧ r.feedbackLevel = .lit 0 ∧ r.algorithmIdPend = 0 ∧ r.feedbackLevelPend = .lit 0 ∧ r.slot = 0 ∧
    r.outValid = false ∧ r.fault = .none ∧ (∀ i : OpIndex, r.freqIn[i] = none ∧ r.ampIn[i] = none)

/-- 60_exceptions.md R125, 70_reset_and_hazards.md R140: reset is the exit from a faulted state; it leaves the configuration. That
it also leaves the list of moves and the answers given is the model's choice (log 17). -/
def Obligations.ResetLeavesFaultedState : Prop :=
  ∀ (s : State) (rest : List HostOp), s.fault ≠ .none → s.ops = .reset :: rest →
    step s = .next { State.powerUp s.num s.mixMode s.rom with ops := rest, answers := s.answers }

/-! ### The agents around the engine -/

/-- 42_host_interface.md R104: `RDOUT` gives `mem` when `out_valid = 1`, is refused otherwise, and changes no state of the
engine. The list of answers, and that a refused read is an answer after which the run goes on, are the model's (log 12). -/
def Obligations.RdoutGivesMem : Prop :=
  ∀ (s : State) (rest : List HostOp), s.ops = .rdout :: rest → s.fault = .none →
    (s.outValid = true → step s = .next { s with ops := rest, answers := .sample s.mem :: s.answers }) ∧
    (s.outValid = false → step s = .next { s with ops := rest, answers := .refused :: s.answers })

/-- 42_host_interface.md R106: `WRALG v` writes the pending id only. That the operand is any integer, so that one outside `[0,32)`
records `F_ALG_RANGE`, is the unbounded model's (log 13): the 5-bit hardware cannot be given such a number (60_exceptions.md R121,
R123). -/
def Obligations.WralgWritesPendingId : Prop :=
  ∀ (s : State) (rest : List HostOp) (v : Int), s.ops = .wralg v :: rest →
    (0 ≤ v → v < 32 → ∃ id : BitVec 5, (id.toNat : Int) = v ∧ step s = .next { s with ops := rest, algorithmIdPend := id }) ∧
    (v < 0 ∨ 32 ≤ v → s.fault = .none → step s = .next { s with ops := rest, fault := .algRange v })

/-- 42_host_interface.md R107: `WRFBL v` writes the pending level only, unclamped. -/
def Obligations.WrfblWritesPendingLevel : Prop :=
  ∀ (s : State) (rest : List HostOp) (v : Value), s.ops = .wrfbl v :: rest → inCarrier s.num v = true →
    step s = .next { s with ops := rest, feedbackLevelPend := v }

/-- 60_exceptions.md R121: in the exact-real instance a non-finite operand of `WRFBL` records `F_NONFINITE`; the
name of the port in the record is the model's (log 16). -/
def Obligations.NonFiniteLevelRaised : Prop :=
  ∀ (s : State) (rest : List HostOp) (v : Value), s.ops = .wrfbl v :: rest → s.num = .exactReal → s.fault = .none →
    (v = .nan ∨ ∃ n, v = .inf n) → step s = .next { s with ops := rest, fault := .nonFinite .wrfbl v }

/-- 42_host_interface.md R105: driving index `i` sets its two ports and nothing else; that they stay so until driven again is the
model's choice (log 9). -/
def Obligations.DriveSetsOnePortPair : Prop :=
  ∀ (s : State) (rest : List HostOp) (i : OpIndex) (f a : Value), s.ops = .drive i (some f) (some a) :: rest →
    presentable s.num f = true → presentable s.num a = true →
    step s = .next { s with ops := rest, freqIn := s.freqIn.set i (some f), ampIn := s.ampIn.set i (some a) }

/-- 10_state.md R21, 42_host_interface.md R108, 60_exceptions.md R132: no move other than `ADVANCE` and reset writes engine-owned
state. -/
def Obligations.OnlyAdvanceWritesEngineState : Prop :=
  ∀ (s t : State) (op : HostOp) (rest : List HostOp), s.ops = op :: rest → step s = .next t → op ≠ .reset →
    (∀ n, op ≠ .advance n) →
    t.phase = s.phase ∧ t.mod = s.mod ∧ t.feedback0 = s.feedback0 ∧ t.feedback1 = s.feedback1 ∧ t.mem = s.mem ∧
    t.algorithmId = s.algorithmId ∧ t.feedbackLevel = s.feedbackLevel ∧ t.slot = s.slot ∧ t.outValid = s.outValid

/-- 42_host_interface.md R103, 93_implementation_defined.md U11: with an undriven port `ADVANCE slot` is stuck (log 10). -/
def Obligations.UndrivenPortIsStuck : Prop :=
  ∀ (s : State) (i : OpIndex) (rest : List HostOp) (w : RomWord), s.ops = .advance i.val :: rest → s.fault = .none →
    s.slot.toNat = i.val → (s.freqIn[i] = none ∨ s.ampIn[i] = none) → wordAt s (rowOf s i) i = some w →
    step s = .fault (.inputUndriven i)

/-- 42_host_interface.md R101: with no move requested there is no step. That this is a named stop is the model's choice
(log 8). -/
def Obligations.NoMoveIsIdle : Prop :=
  ∀ s : State, step s = .fault .idle ↔ s.ops = []

/-! ### Steps and runs -/

/-- 42_host_interface.md R100, R103: `ADVANCE slot` executes the word at `(row, slot)`. -/
def Obligations.StepRunsDecodedInstruction : Prop :=
  ∀ (s : State) (i : OpIndex) (rest : List HostOp) (w : RomWord) (instr : Instr),
    s.ops = .advance i.val :: rest → s.fault = .none → s.slot.toNat = i.val →
    wordAt s (rowOf s i) i = some w → decode w = .ok instr → step s = exec instr { s with ops := rest }

/-- The word the host fits is the one the next step runs (the model's own interface, log 20). -/
def Obligations.FittedWordRunsNext : Prop :=
  ∀ (s : State) (nbits w : Nat) (instr : Instr), decodeTableWord nbits w = some instr → s.fault = .none →
    s.slot.toNat < 6 → Memory.wf s.rom = true →
    step (s.withFetchWord nbits w) = exec instr { s.withFetchWord nbits w with ops := s.ops } ∧
    ∃ t, step (State.reset.withFetchWord nbits w) = .next t

/-- Every step keeps the control state legal: `slot` in 0..5 (10_state.md R15), `out_valid` only at a frame boundary (R19), the
ROM canonical. -/
def Obligations.StepKeepsControlLegal : Prop :=
  ∀ s t : State, ControlLegal s → step s = .next t → ControlLegal t

/-- 10_state.md R25: the reset state is legal in that sense. -/
def Obligations.ResetControlLegal : Prop := ControlLegal State.reset

/-- 00_scope.md R6, 10_state.md R23: every step keeps every register of type `V` in the carrier of the instance. -/
def Obligations.StepKeepsValuesInCarrier : Prop :=
  ∀ s t : State, ValuesInCarrier s → step s = .next t → ValuesInCarrier t

/-- The reset state of every instance holds elements of its carrier. -/
def Obligations.ResetValuesInCarrier : Prop :=
  ∀ (k : NumKind) (mode : MixMode) (m : Memory), ValuesInCarrier (State.powerUp k mode m)

/-- 95_test_vectors.md V-RST: in the reference instance, with no amplitude driven but zero, silence is kept. -/
def Obligations.SilenceIsKept : Prop :=
  ∀ s t : State, s.num = .exactReal → ValuesInCarrier s → Silent s →
    (∀ i f a rest, s.ops = .drive i f a :: rest → a = none ∨ a = some (.lit 0)) → step s = .next t → Silent t

/-- 40_advance_datapath.md R86, 42_host_interface.md R101, 20_memory.md R41: from a frame boundary with a well-formed image, the
twelve moves of a frame (each index driven, then advanced) complete without a fault and end at a frame boundary with a valid
output; the frame used the ids pending when it began. -/
def Obligations.FrameCompletes : Prop :=
  ∀ (s : State) (freq amp : Vector Value 6) (rest : List HostOp), s.fault = .none → s.slot = 0 →
    wellFormedImage s.rom = true → FrameInputs s.num freq amp → s.ops = frameOps freq amp ++ rest →
    ∃ t : State, Host.Core.run Sys2Proof.core 12 s = .next t ∧ t.slot = 0 ∧ t.outValid = true ∧ t.fault = .none ∧ t.ops = rest ∧
      t.algorithmId = s.algorithmIdPend ∧ t.feedbackLevel = s.feedbackLevelPend ∧ t.algorithmIdPend = s.algorithmIdPend ∧
      t.feedbackLevelPend = s.feedbackLevelPend ∧ t.answers = s.answers ∧ t.rom = s.rom ∧ t.num = s.num

/-- 40_advance_datapath.md R76, 95_test_vectors.md S5, 90_conflicts.md C8: when exactly one word of the row captures, after the
second of two frames `feedback[1]` is what `feedback[0]` was after the first. -/
def Obligations.FeedbackShiftsOncePerFrame : Prop :=
  ∀ (s : State) (freq1 amp1 freq2 amp2 : Vector Value 6) (rest : List HostOp) (k : OpIndex), s.fault = .none → s.slot = 0 →
    wellFormedImage s.rom = true → FrameInputs s.num freq1 amp1 → FrameInputs s.num freq2 amp2 →
    s.ops = frameOps freq1 amp1 ++ (frameOps freq2 amp2 ++ rest) →
    (∀ j : OpIndex, (romDescriptor s.rom s.algorithmIdPend (j.val : Int)).map Instr.a = some (decide (j = k))) →
    ∃ t1 t2 : State, Host.Core.run Sys2Proof.core 12 s = .next t1 ∧ Host.Core.run Sys2Proof.core 12 t1 = .next t2 ∧
      t2.feedback1 = t1.feedback0
end

