-- ==== Sys2Proof/Laws/Enclosure.lean ====
section
/-! SUPPORT. The order of the exact-real instance is the order of the real numbers: every interval of Machine/Enclosure.lean holds
the number it encloses, the intervals shrink to it, and so the search ends exactly when one number exceeds the other. -/

namespace Sys2Proof.Laws

open Sys2Proof Sys2Proof.Machine Filter

/-- The interval holds the number. -/
def Encloses (e : Enclosure) (x : ℝ) : Prop := |(e.center : ℝ) - x| ≤ (e.radius : ℝ)

theorem Encloses.radius_nonneg {e : Enclosure} {x : ℝ} (h : Encloses e x) : (0 : ℝ) ≤ e.radius := (abs_nonneg _).trans h

theorem encloses_add {a b : Enclosure} {x y : ℝ} (ha : Encloses a x) (hb : Encloses b y) :
    Encloses (encloseAdd a b) (x + y) := by
  unfold Encloses encloseAdd at *
  push_cast
  rw [show (a.center : ℝ) + b.center - (x + y) = (a.center - x) + (b.center - y) by ring]
  exact (abs_add_le _ _).trans (add_le_add ha hb)

theorem encloses_mul {a b : Enclosure} {x y : ℝ} (ha : Encloses a x) (hb : Encloses b y) :
    Encloses (encloseMul a b) (x * y) := by
  have ra := ha.radius_nonneg
  unfold Encloses encloseMul at *
  push_cast
  have split : (a.center : ℝ) * b.center - x * y =
      a.center * (b.center - y) + b.center * (a.center - x) - (a.center - x) * (b.center - y) := by ring
  rw [split]
  refine (abs_sub _ _).trans (add_le_add ((abs_add_le _ _).trans (add_le_add ?_ ?_)) ?_)
  · rw [abs_mul]
    exact mul_le_mul_of_nonneg_left hb (abs_nonneg _)
  · rw [abs_mul]
    exact mul_le_mul_of_nonneg_left ha (abs_nonneg _)
  · rw [abs_mul]
    exact mul_le_mul ha hb (abs_nonneg _) ra

theorem quarterPiSum_eq (n : Nat) : (quarterPiSum n : ℝ) = ∑ i ∈ Finset.range n, (-1 : ℝ) ^ i * (1 / (2 * (i : ℝ) + 1)) := by
  induction n with
  | zero => simp [quarterPiSum]
  | succ n ih =>
    rw [Finset.sum_range_succ, ← ih, quarterPiSum]
    push_cast
    ring

theorem encloses_pi (n : Nat) : Encloses (enclosePi n) Real.pi := by
  have anti : Antitone fun i : Nat => (1 : ℝ) / (2 * (i : ℝ) + 1) := by
    intro i j hij
    have : (i : ℝ) ≤ j := by exact_mod_cast hij
    apply one_div_le_one_div_of_le (by positivity)
    linarith
  have lim : Tendsto (fun n => ∑ i ∈ Finset.range n, (-1 : ℝ) ^ i * (1 / (2 * (i : ℝ) + 1))) atTop
      (nhds (Real.pi / 4)) := by
    simpa [div_eq_mul_inv] using Real.tendsto_sum_pi_div_four
  have lo := anti.alternating_series_le_tendsto lim n
  have hi := anti.tendsto_le_alternating_series lim n
  rw [← quarterPiSum_eq] at lo
  rw [Finset.sum_range_succ, ← quarterPiSum_eq] at hi
  have sign : (-1 : ℝ) ^ (2 * n) = 1 := by simp
  rw [sign] at hi
  unfold Encloses enclosePi
  push_cast at hi ⊢
  rw [abs_le]
  have e : (4 : ℝ) / (4 * n + 1) = 4 * (1 / (2 * (2 * n) + 1)) := by
    rw [show (2 : ℝ) * (2 * n) + 1 = 4 * n + 1 by ring]
    ring
  rw [e]
  constructor <;> linarith

/-- The imaginary part of a term of the exponential series at `c * I` is the term of the sine series at `c`. -/
theorem im_exp_term (c : ℚ) (m : Nat) :
    (((c : ℂ) * Complex.I) ^ m / (m.factorial : ℂ)).im = (sinTerm c m : ℝ) := by
  have real : ((c : ℂ) * Complex.I) ^ m / (m.factorial : ℂ) =
      (((c : ℝ) ^ m / (m.factorial : ℝ) : ℝ) : ℂ) * Complex.I ^ (m % 4) := by
    rw [← Complex.I_pow_eq_pow_mod, mul_pow]
    push_cast
    ring
  rw [real, Complex.im_ofReal_mul]
  unfold sinTerm
  have hlt : m % 4 < 4 := Nat.mod_lt _ (by norm_num)
  generalize m % 4 = r at *
  interval_cases r <;> simp [pow_succ]

theorem im_exp_sum (c : ℚ) (n : Nat) :
    (∑ m ∈ Finset.range n, ((c : ℂ) * Complex.I) ^ m / (m.factorial : ℂ)).im = (sinSum c n : ℝ) := by
  induction n with
  | zero => simp [sinSum]
  | succ n ih =>
    rw [Finset.sum_range_succ, Complex.add_im, ih, im_exp_term, sinSum]
    push_cast
    rfl

/-- The remainder of the sine series, once the terms halve. -/
theorem sin_remainder (c : ℚ) (n : Nat) (h : 2 * |c| ≤ (n : ℚ) + 1) :
    |Real.sin c - sinSum c n| ≤ |(c : ℝ)| ^ n / n.factorial * 2 := by
  have hn : ‖(c : ℂ) * Complex.I‖ = |(c : ℝ)| := by
    rw [norm_mul, Complex.norm_I, mul_one, ← Complex.ofReal_ratCast, Complex.norm_real, Real.norm_eq_abs]
  have hc : ‖(c : ℂ) * Complex.I‖ / (n.succ : ℝ) ≤ 1 / 2 := by
    rw [hn, div_le_iff₀ (by positivity)]
    have h' : 2 * |(c : ℝ)| ≤ (n : ℝ) + 1 := by exact_mod_cast h
    push_cast
    linarith
  have bound := Complex.exp_bound' hc
  rw [hn] at bound
  refine le_trans ?_ bound
  have him : (Complex.exp ((c : ℂ) * Complex.I) -
      ∑ m ∈ Finset.range n, ((c : ℂ) * Complex.I) ^ m / (m.factorial : ℂ)).im = Real.sin c - sinSum c n := by
    rw [Complex.sub_im, im_exp_sum, ← Complex.ofReal_ratCast, Complex.exp_ofReal_mul_I_im]
  rw [← him]
  exact Complex.abs_im_le_norm _

theorem encloses_sin {a : Enclosure} {x : ℝ} (n : Nat) (ha : Encloses a x) : Encloses (encloseSin n a) (Real.sin x) := by
  unfold encloseSin
  split
  · rename_i h
    have hr := sin_remainder a.center n h
    have hl := (Real.abs_sin_sub_sin_le a.center x).trans ha
    rw [abs_sub_comm] at hr
    unfold Encloses
    push_cast
    rw [show (sinSum a.center n : ℝ) - Real.sin x =
      (sinSum a.center n - Real.sin a.center) + (Real.sin a.center - Real.sin x) by ring]
    refine (abs_add_le _ _).trans ?_
    linarith
  · unfold Encloses
    simpa using Real.abs_sin_le_one x

theorem inputDigits_eq (k n : Nat) :
    (inputDigits k n : ℝ) = ∑ i ∈ Finset.range n, Real.ofDigitsTerm (Config.inputDigit k) i := by
  induction n with
  | zero => simp [inputDigits]
  | succ n ih =>
    rw [Finset.sum_range_succ, ← ih, inputDigits, Real.ofDigitsTerm]
    push_cast
    ring

theorem encloses_input (k n : Nat) :
    Encloses (encloseInput k n) ((Config.inputFloor k : ℝ) + Real.ofDigits (Config.inputDigit k)) := by
  have h := Real.ofDigits_eq_sum_add_ofDigits (Config.inputDigit k) n
  have h0 := Real.ofDigits_nonneg fun i => Config.inputDigit k (i + n)
  have h1 := Real.ofDigits_le_one fun i => Config.inputDigit k (i + n)
  have hp : (0 : ℝ) < ((2 : ℝ) ^ n)⁻¹ := by positivity
  unfold Encloses encloseInput
  rw [h, ← inputDigits_eq]
  push_cast
  rw [abs_le]
  constructor <;> rw [one_div] <;> nlinarith

/-- Every interval holds the number it encloses. -/
theorem encloses_enclose (n : Nat) (x : Exact) : Encloses (enclose n x) (denote x) := by
  induction x with
  | rat q => simp [Encloses, enclose, denote]
  | pi => exact encloses_pi n
  | input k => exact encloses_input k n
  | add x y hx hy => exact encloses_add hx hy
  | mul x y hx hy => exact encloses_mul hx hy
  | sin x hx => exact encloses_sin n hx

/-! ### The intervals shrink -/

/-- The radii of intervals that hold one number go to zero. -/
def Shrinks (e : Nat → Enclosure) : Prop := Tendsto (fun n => ((e n).radius : ℝ)) atTop (nhds 0)

theorem center_tendsto {e : Nat → Enclosure} {x : ℝ} (hs : Shrinks e) (he : ∀ n, Encloses (e n) x) :
    Tendsto (fun n => ((e n).center : ℝ)) atTop (nhds x) :=
  tendsto_iff_norm_sub_tendsto_zero.mpr (squeeze_zero (fun _ => norm_nonneg _) he hs)

theorem shrinks_pi : Shrinks enclosePi := by
  unfold Shrinks enclosePi
  push_cast
  have h : Tendsto (fun n : Nat => (4 : ℝ) * n + 1) atTop atTop :=
    tendsto_atTop_add_const_right _ _ (tendsto_natCast_atTop_atTop.const_mul_atTop (by norm_num))
  exact tendsto_const_nhds.div_atTop h

theorem shrinks_input (k : Nat) : Shrinks (encloseInput k) := by
  unfold Shrinks encloseInput
  push_cast
  simpa using tendsto_pow_atTop_nhds_zero_of_lt_one (r := (2 : ℝ)⁻¹) (by norm_num) (by norm_num)

theorem shrinks_add {a b : Nat → Enclosure} (ha : Shrinks a) (hb : Shrinks b) :
    Shrinks fun n => encloseAdd (a n) (b n) := by
  unfold Shrinks encloseAdd at *
  push_cast
  simpa using ha.add hb

theorem shrinks_mul {a b : Nat → Enclosure} {x y : ℝ} (ha : Shrinks a) (hb : Shrinks b) (ea : ∀ n, Encloses (a n) x)
    (eb : ∀ n, Encloses (b n) y) : Shrinks fun n => encloseMul (a n) (b n) := by
  have ca := (center_tendsto ha ea).abs
  have cb := (center_tendsto hb eb).abs
  unfold Shrinks encloseMul at *
  push_cast
  simpa using ((ca.mul hb).add (cb.mul ha)).add (ha.mul hb)

theorem shrinks_sin {a : Nat → Enclosure} {x : ℝ} (ha : Shrinks a) (ea : ∀ n, Encloses (a n) x) :
    Shrinks fun n => encloseSin n (a n) := by
  have bounded : ∀ᶠ n in atTop, |((a n).center : ℝ)| ≤ |x| + 1 :=
    ((center_tendsto ha ea).abs.eventually_lt_const (lt_add_one _)).mono fun _ h => h.le
  have large : ∀ᶠ n : Nat in atTop, 2 * (|x| + 1) ≤ (n : ℝ) + 1 :=
    (tendsto_natCast_atTop_atTop.eventually_ge_atTop (2 * (|x| + 1))).mono fun n h => by linarith
  have fact : Tendsto (fun n : Nat => (|x| + 1) ^ n / (n.factorial : ℝ) * 2) atTop (nhds 0) := by
    simpa using (FloorSemiring.tendsto_pow_div_factorial_atTop (|x| + 1)).mul_const 2
  have bound := ha.add fact
  rw [add_zero] at bound
  refine tendsto_of_tendsto_of_tendsto_of_le_of_le' tendsto_const_nhds bound ?_ ?_
  · exact Eventually.of_forall fun n => (encloses_sin n (ea n)).radius_nonneg
  · filter_upwards [bounded, large] with n hb hl
    have hc : 2 * |(a n).center| ≤ (n : ℚ) + 1 := by
      have : 2 * |((a n).center : ℝ)| ≤ (n : ℝ) + 1 := by linarith
      exact_mod_cast this
    simp only [encloseSin, if_pos hc]
    push_cast
    gcongr

theorem shrinks_enclose (x : Exact) : Shrinks fun n => enclose n x := by
  induction x with
  | rat q => simp [Shrinks, enclose]
  | pi => exact shrinks_pi
  | input k => exact shrinks_input k
  | add x y hx hy => exact shrinks_add hx hy
  | mul x y hx hy => exact shrinks_mul hx hy (encloses_enclose · x) (encloses_enclose · y)
  | sin x hx => exact shrinks_sin hx (encloses_enclose · x)

/-! ### The search -/

theorem exceedsAt_sound {x y : Exact} {n : Nat} (h : exceedsAt x y n = true) : denote y < denote x := by
  have hx := (abs_le.mp (encloses_enclose n x)).2
  have hy := (abs_le.mp (encloses_enclose n y)).1
  have h' : ((enclose n y).center : ℝ) + (enclose n y).radius < (enclose n x).center - (enclose n x).radius := by
    exact_mod_cast of_decide_eq_true h
  linarith

theorem exceedsAt_complete {x y : Exact} (h : denote y < denote x) : ∃ n, exceedsAt x y n = true := by
  have cx := center_tendsto (shrinks_enclose x) (encloses_enclose · x)
  have cy := center_tendsto (shrinks_enclose y) (encloses_enclose · y)
  have lo := cx.sub (shrinks_enclose x)
  have hi := cy.add (shrinks_enclose y)
  rw [sub_zero] at lo
  rw [add_zero] at hi
  obtain ⟨n, hn⟩ := (hi.eventually_lt lo h).exists
  exact ⟨n, decide_eq_true (by exact_mod_cast hn)⟩

theorem exceedsFrom_of_exceedsAt {x y : Exact} (d : Nat) {n : Nat} (h : exceedsAt x y (n + d) = true) :
    exceedsFrom x y n = some () := by
  induction d generalizing n with
  | zero => rw [exceedsFrom, if_pos (by simpa using h)]
  | succ d ih =>
    rw [exceedsFrom]
    split
    · rfl
    · exact ih (by rwa [Nat.add_right_comm])

theorem exceedsAt_of_exceedsFrom {x y : Exact} {n : Nat} (h : exceedsFrom x y n = some ()) :
    ∃ m, exceedsAt x y m = true := by
  refine exceedsFrom.partial_correctness x y (fun _ _ => ∃ m, exceedsAt x y m = true) ?_ n () h
  intro search ih n r hr
  split at hr
  · exact ⟨n, ‹_›⟩
  · exact ih _ _ hr

/-- The order of exact values is the order of the real numbers they denote (00_scope.md R8). -/
theorem exactGt_iff (x y : Exact) : exactGt x y = true ↔ denote x > denote y := by
  have search : (exceedsFrom x y 0).isSome = true ↔ denote x > denote y := by
    constructor
    · intro h
      obtain ⟨u, hu⟩ := Option.isSome_iff_exists.mp h
      obtain ⟨m, hm⟩ := exceedsAt_of_exceedsFrom hu
      exact exceedsAt_sound hm
    · intro h
      obtain ⟨n, hn⟩ := exceedsAt_complete h
      rw [exceedsFrom_of_exceedsAt n (by simpa using hn)]
      rfl
  unfold exactGt
  split
  · simp [denote]
  · exact search

/-- Every real number is the value of some whole part and digits: an input can be any real number. -/
theorem exists_inputDigits (r : ℝ) : ∃ (z : Int) (d : Nat → Fin 2), (z : ℝ) + Real.ofDigits d = r :=
  ⟨⌊r⌋, Real.digits (Int.fract r) 2, by
    rw [Real.ofDigits_digits (by norm_num) ⟨Int.fract_nonneg r, Int.fract_lt_one r⟩, Int.floor_add_fract]⟩

end Sys2Proof.Laws
end

