-- ==== Sys2Proof/Laws/Rounding.lean ====
section
/-! SUPPORT. The laws of rounding into a binary format: what the exponent, the unit and the rounded count of units are, and that
a rounded number is an element of the format. -/

namespace Sys2Proof.Laws

open Sys2Proof Sys2Proof.Machine

theorem scaledRat_eq (m : Nat) (t : Int) : scaledRat m t = (m : ℚ) * (2 : ℚ) ^ t := by
  cases t with
  | ofNat j => simp [scaledRat]
  | negSucc j => simp [scaledRat, zpow_negSucc, div_eq_mul_inv]

theorem two_zpow_pos (t : Int) : (0 : ℚ) < (2 : ℚ) ^ t := zpow_pos (by norm_num) t

/-- `binaryExponent` is the exponent `e` with `2^e ≤ n / d < 2^(e+1)`. -/
theorem binaryExponent_spec {n d : Nat} (hn : 0 < n) (hd : 0 < d) :
    (2 : ℚ) ^ binaryExponent n d ≤ (n : ℚ) / d ∧ (n : ℚ) / d < (2 : ℚ) ^ (binaryExponent n d + 1) := by
  have hdq : (0 : ℚ) < d := by exact_mod_cast hd
  have n_lo : (2 : ℚ) ^ (Nat.log2 n : Int) ≤ n := by
    rw [zpow_natCast]
    exact_mod_cast Nat.log2_self_le (by omega)
  have n_hi : (n : ℚ) < (2 : ℚ) ^ ((Nat.log2 n : Int) + 1) := by
    have h := Nat.lt_log2_self (n := n)
    have : (n : ℚ) < (2 : ℚ) ^ (Nat.log2 n + 1) := by exact_mod_cast h
    simpa [← zpow_natCast] using this
  have d_lo : (2 : ℚ) ^ (Nat.log2 d : Int) ≤ d := by
    rw [zpow_natCast]
    exact_mod_cast Nat.log2_self_le (by omega)
  have d_hi : (d : ℚ) < (2 : ℚ) ^ ((Nat.log2 d : Int) + 1) := by
    have h := Nat.lt_log2_self (n := d)
    have : (d : ℚ) < (2 : ℚ) ^ (Nat.log2 d + 1) := by exact_mod_cast h
    simpa [← zpow_natCast] using this
  have two_ne : (2 : ℚ) ≠ 0 := by norm_num
  generalize ha : (Nat.log2 n : Int) = a at *
  generalize hb : (Nat.log2 d : Int) = b at *
  have upper : (n : ℚ) / d < (2 : ℚ) ^ (a - b + 1) := by
    rw [div_lt_iff₀ hdq]
    calc (n : ℚ) < 2 ^ (a + 1) := n_hi
      _ = 2 ^ (a - b + 1) * 2 ^ b := by rw [← zpow_add₀ two_ne]; congr 1; ring
      _ ≤ 2 ^ (a - b + 1) * d := by gcongr
  have lower : (2 : ℚ) ^ (a - b - 1) ≤ (n : ℚ) / d := by
    rw [le_div_iff₀ hdq]
    calc (2 : ℚ) ^ (a - b - 1) * d ≤ 2 ^ (a - b - 1) * 2 ^ (b + 1) := by gcongr
      _ = 2 ^ a := by rw [← zpow_add₀ two_ne]; congr 1; ring
      _ ≤ n := n_lo
  have reach : (match (a - b : Int) with
      | .ofNat j => decide (d * 2 ^ j ≤ n)
      | .negSucc j => decide (d ≤ n * 2 ^ (j + 1))) = true ↔ (2 : ℚ) ^ (a - b) ≤ (n : ℚ) / d := by
    rw [le_div_iff₀ hdq]
    cases hk : (a - b : Int) with
    | ofNat j =>
      simp only [Int.ofNat_eq_natCast, zpow_natCast, decide_eq_true_eq]
      rw [mul_comm]
      exact_mod_cast Iff.rfl
    | negSucc j =>
      simp only [zpow_negSucc, decide_eq_true_eq]
      rw [inv_mul_le_iff₀ (by positivity), mul_comm]
      exact_mod_cast Iff.rfl
  have value : binaryExponent n d = if (match (a - b : Int) with
      | .ofNat j => decide (d * 2 ^ j ≤ n)
      | .negSucc j => decide (d ≤ n * 2 ^ (j + 1))) = true then a - b else a - b - 1 := by
    rw [← ha, ← hb]
    rfl
  rw [value]
  by_cases h : (2 : ℚ) ^ (a - b) ≤ (n : ℚ) / d
  · rw [if_pos (reach.mpr h)]
    exact ⟨h, upper⟩
  · rw [if_neg (mt reach.mp h)]
    exact ⟨lower, by simpa using h⟩

/-- `roundHalfEven n d` is within one half of `n / d`. -/
theorem roundHalfEven_near {d : Nat} (n : Nat) (hd : 0 < d) :
    2 * (roundHalfEven n d * d) ≤ 2 * n + d ∧ 2 * n ≤ 2 * (roundHalfEven n d * d) + d := by
  have hdm := Nat.div_add_mod n d
  have hlt := Nat.mod_lt n hd
  rw [mul_comm] at hdm
  unfold roundHalfEven
  split
  · omega
  · split
    · rw [Nat.add_mul]; omega
    · rcases Nat.mod_two_eq_zero_or_one (n / d) with h | h <;> rw [h]
      · simp only [Nat.add_zero]; omega
      · rw [Nat.add_mul]; omega

/-- At a tie `roundHalfEven` answers the even number. -/
theorem roundHalfEven_even {d : Nat} (n : Nat) (hd : 0 < d)
    (h : 2 * (roundHalfEven n d * d) = 2 * n + d ∨ 2 * n = 2 * (roundHalfEven n d * d) + d) : roundHalfEven n d % 2 = 0 := by
  have hdm := Nat.div_add_mod n d
  have hlt := Nat.mod_lt n hd
  rw [mul_comm] at hdm
  unfold roundHalfEven at *
  split at h
  · omega
  · split at h
    · rw [Nat.add_mul] at h; omega
    · rename_i above below
      rw [if_neg above, if_neg below]
      omega

/-- A whole quotient is not changed. -/
theorem roundHalfEven_exact {d : Nat} (m : Nat) (hd : 0 < d) : roundHalfEven (m * d) d = m := by
  simp [roundHalfEven, hd]

/-- `roundUnits n d t` counts units `2^t` and is within one half of `n / d`. -/
theorem roundUnits_near {n d : Nat} (hd : 0 < d) (t : Int) :
    |(roundUnits n d t : ℚ) * 2 ^ t - (n : ℚ) / d| ≤ 2 ^ t / 2 := by
  have hdq : (0 : ℚ) < d := by exact_mod_cast hd
  cases t with
  | ofNat j =>
    have hp : 0 < d * 2 ^ j := by positivity
    have h := roundHalfEven_near n hp
    have h1 : (2 : ℚ) * (roundHalfEven n (d * 2 ^ j) * (d * 2 ^ j)) ≤ 2 * n + d * 2 ^ j := by exact_mod_cast h.1
    have h2 : (2 : ℚ) * n ≤ 2 * (roundHalfEven n (d * 2 ^ j) * (d * 2 ^ j)) + d * 2 ^ j := by exact_mod_cast h.2
    simp only [roundUnits, Int.ofNat_eq_natCast, zpow_natCast]
    have key : (roundHalfEven n (d * 2 ^ j) : ℚ) * 2 ^ j - n / d =
        (roundHalfEven n (d * 2 ^ j) * (d * 2 ^ j) - n) / d := by field_simp
    rw [key, abs_div, abs_of_pos hdq, div_le_iff₀ hdq, abs_le]
    constructor <;> nlinarith
  | negSucc j =>
    have h := roundHalfEven_near (n * 2 ^ (j + 1)) hd
    have h1 : (2 : ℚ) * (roundHalfEven (n * 2 ^ (j + 1)) d * d) ≤ 2 * (n * 2 ^ (j + 1)) + d := by exact_mod_cast h.1
    have h2 : (2 : ℚ) * (n * 2 ^ (j + 1)) ≤ 2 * (roundHalfEven (n * 2 ^ (j + 1)) d * d) + d := by exact_mod_cast h.2
    simp only [roundUnits, zpow_negSucc]
    have hP : (0 : ℚ) < 2 ^ (j + 1) := by positivity
    generalize (2 : ℚ) ^ (j + 1) = P at *
    have key : (roundHalfEven (n * 2 ^ (j + 1)) d : ℚ) * P⁻¹ - n / d =
        (roundHalfEven (n * 2 ^ (j + 1)) d * d - n * P) / (d * P) := by field_simp
    rw [key, abs_div, abs_of_pos (mul_pos hdq hP), div_le_iff₀ (mul_pos hdq hP), abs_le]
    have e : P⁻¹ / 2 * (d * P) = d / 2 := by field_simp
    rw [e]
    constructor <;> linarith

/-- At a tie `roundUnits` answers the even count. -/
theorem roundUnits_even {n d : Nat} (hd : 0 < d) (t : Int)
    (h : |(roundUnits n d t : ℚ) * 2 ^ t - (n : ℚ) / d| = 2 ^ t / 2) : roundUnits n d t % 2 = 0 := by
  have hdq : (0 : ℚ) < d := by exact_mod_cast hd
  cases t with
  | ofNat j =>
    simp only [roundUnits, Int.ofNat_eq_natCast, zpow_natCast] at h ⊢
    apply roundHalfEven_even n (by positivity : 0 < d * 2 ^ j)
    have key : (roundHalfEven n (d * 2 ^ j) : ℚ) * 2 ^ j - n / d =
        (roundHalfEven n (d * 2 ^ j) * (d * 2 ^ j) - n) / d := by field_simp
    rw [key, abs_div, abs_of_pos hdq, div_eq_iff hdq.ne'] at h
    rcases abs_cases ((roundHalfEven n (d * 2 ^ j) : ℚ) * (d * 2 ^ j) - n) with ⟨e, _⟩ | ⟨e, _⟩ <;> rw [e] at h
    · left
      have : (2 : ℚ) * (roundHalfEven n (d * 2 ^ j) * (d * 2 ^ j)) = 2 * n + d * 2 ^ j := by linarith
      exact_mod_cast this
    · right
      have : (2 : ℚ) * n = 2 * (roundHalfEven n (d * 2 ^ j) * (d * 2 ^ j)) + d * 2 ^ j := by linarith
      exact_mod_cast this
  | negSucc j =>
    simp only [roundUnits, zpow_negSucc] at h ⊢
    apply roundHalfEven_even _ hd
    have hP : (0 : ℚ) < ((2 ^ (j + 1) : Nat) : ℚ) := by positivity
    have cast : ((2 ^ (j + 1) : Nat) : ℚ) = (2 : ℚ) ^ (j + 1) := by push_cast; rfl
    rw [← cast] at h
    generalize (2 : Nat) ^ (j + 1) = P at *
    have key : (roundHalfEven (n * P) d : ℚ) * (P : ℚ)⁻¹ - n / d =
        (roundHalfEven (n * P) d * d - n * P) / (d * P) := by field_simp
    have e2 : (P : ℚ)⁻¹ / 2 * (d * P) = d / 2 := by field_simp
    rw [key, abs_div, abs_of_pos (mul_pos hdq hP), div_eq_iff (mul_pos hdq hP).ne', e2] at h
    rcases abs_cases ((roundHalfEven (n * P) d : ℚ) * d - n * P) with ⟨e, _⟩ | ⟨e, _⟩ <;> rw [e] at h
    · left
      have : (2 : ℚ) * (roundHalfEven (n * P) d * d) = 2 * (n * P) + d := by linarith
      exact_mod_cast this
    · right
      have : (2 : ℚ) * (n * P) = 2 * (roundHalfEven (n * P) d * d) + d := by linarith
      exact_mod_cast this

/-- A count of units within one half of `x` is nearest to `x` among all counts of that unit. -/
theorem nearest_of_near {x : ℚ} {t : Int} {m : Nat} (h : |(m : ℚ) * 2 ^ t - x| ≤ 2 ^ t / 2) (j : Nat) :
    |(m : ℚ) * 2 ^ t - x| ≤ |(j : ℚ) * 2 ^ t - x| := by
  have htp := two_zpow_pos t
  rcases lt_trichotomy m j with hlt | rfl | hlt
  · have hj : (m : ℚ) + 1 ≤ j := by exact_mod_cast hlt
    have h1 := (abs_le.mp h).1
    have h2 : (2 : ℚ) ^ t / 2 ≤ (j : ℚ) * 2 ^ t - x := by nlinarith
    exact h.trans (h2.trans (le_abs_self _))
  · exact le_refl _
  · have hj : (j : ℚ) + 1 ≤ m := by exact_mod_cast hlt
    have h1 := (abs_le.mp h).2
    have h2 : (2 : ℚ) ^ t / 2 ≤ -((j : ℚ) * 2 ^ t - x) := by nlinarith
    exact h.trans (h2.trans (neg_le_abs _))

/-- The numerator and denominator that rounding uses are those of the magnitude. -/
theorem natAbs_div_den (q : ℚ) : ((q.num.natAbs : Nat) : ℚ) / q.den = |q| := by
  have h : ((q.num.natAbs : Nat) : ℚ) = |(q.num : ℚ)| := by
    rw [← Int.cast_abs, Int.abs_eq_natAbs]
    simp
  rw [h]
  conv_rhs => rw [← Rat.num_div_den q, abs_div]
  simp

/-- A number that is a whole count of units rounds to that count. -/
theorem roundUnits_exact {n d m : Nat} (hd : 0 < d) (t : Int) (h : (n : ℚ) / d = m * 2 ^ t) : roundUnits n d t = m := by
  have hdq : (0 : ℚ) < d := by exact_mod_cast hd
  rw [div_eq_iff hdq.ne'] at h
  cases t with
  | ofNat j =>
    simp only [Int.ofNat_eq_natCast, zpow_natCast] at h
    have h' : n = m * (d * 2 ^ j) := by
      have : (n : ℚ) = m * (d * 2 ^ j) := by rw [h]; ring
      exact_mod_cast this
    simp only [roundUnits]
    rw [h', roundHalfEven_exact m (by positivity)]
  | negSucc j =>
    simp only [zpow_negSucc] at h
    have h' : n * 2 ^ (j + 1) = m * d := by
      have : (n : ℚ) * 2 ^ (j + 1) = m * d := by rw [h]; field_simp
      exact_mod_cast this
    simp only [roundUnits]
    rw [h', roundHalfEven_exact m hd]

/-- The unit of a positive number: at most its leading digit's, and not below the format's smallest. -/
theorem unitExponent_spec (fmt : FloatFormat) {n d : Nat} (hn : 0 < n) (hd : 0 < d) :
    (n : ℚ) / d < 2 ^ (unitExponent fmt n d + fmt.precision) ∧ fmt.emin - ((fmt.precision : Int) - 1) ≤ unitExponent fmt n d := by
  obtain ⟨_, h⟩ := binaryExponent_spec hn hd
  refine ⟨lt_of_lt_of_le h (zpow_le_zpow_right₀ (by norm_num) ?_), ?_⟩ <;> unfold unitExponent <;> omega

/-- The count of units of a rounded number fits the significand, or is the next power of two. -/
theorem roundUnits_le (fmt : FloatFormat) {n d : Nat} (hn : 0 < n) (hd : 0 < d) :
    roundUnits n d (unitExponent fmt n d) ≤ 2 ^ fmt.precision := by
  have hnear := roundUnits_near (n := n) hd (unitExponent fmt n d)
  have hlt := (unitExponent_spec fmt hn hd).1
  generalize unitExponent fmt n d = t at *
  by_contra hc
  have hc' : (2 : ℚ) ^ fmt.precision + 1 ≤ roundUnits n d t := by exact_mod_cast Nat.lt_of_not_le hc
  have htp := two_zpow_pos t
  rw [zpow_add₀ (by norm_num), zpow_natCast] at hlt
  have h1 := (abs_le.mp hnear).2
  nlinarith

/-- A positive number that is a whole count of its own units is not changed by rounding. -/
theorem roundMagnitude_exact (fmt : FloatFormat) {n d m : Nat} (hd : 0 < d)
    (h : (n : ℚ) / d = m * 2 ^ unitExponent fmt n d) : roundMagnitude fmt n d = (n : ℚ) / d := by
  rw [roundMagnitude, roundUnits_exact hd _ h, scaledRat_eq, h]

/-- The unit of a positive number below `2^(t + precision)`, for a unit `t` of the format, is at most `2^t`. -/
theorem unitExponent_le (fmt : FloatFormat) {n d : Nat} (hn : 0 < n) (hd : 0 < d) {t : Int}
    (ht : fmt.emin - ((fmt.precision : Int) - 1) ≤ t) (h : (n : ℚ) / d < 2 ^ (t + fmt.precision)) :
    unitExponent fmt n d ≤ t := by
  obtain ⟨hlo, _⟩ := binaryExponent_spec hn hd
  have hlt : binaryExponent n d < t + fmt.precision :=
    (zpow_lt_zpow_iff_right₀ (by norm_num : (1 : ℚ) < 2)).mp (lt_of_le_of_lt hlo h)
  unfold unitExponent
  omega

/-- A count of units `2^t` that is at most `2^precision` is a whole count of its own units. -/
theorem whole_units (fmt : FloatFormat) {n d m : Nat} (hn : 0 < n) (hd : 0 < d) {t : Int}
    (ht : fmt.emin - ((fmt.precision : Int) - 1) ≤ t) (hp : 0 < fmt.precision) (hm : m ≤ 2 ^ fmt.precision)
    (h : (n : ℚ) / d = m * 2 ^ t) : ∃ k : Nat, (n : ℚ) / d = k * 2 ^ unitExponent fmt n d := by
  have two_ne : (2 : ℚ) ≠ 0 := by norm_num
  have scaled : ∀ {j : Nat} {u : Int}, (n : ℚ) / d = j * 2 ^ u → unitExponent fmt n d ≤ u →
      ∃ k : Nat, (n : ℚ) / d = k * 2 ^ unitExponent fmt n d := by
    intro j u hj hu
    refine ⟨j * 2 ^ (u - unitExponent fmt n d).toNat, ?_⟩
    rw [hj]
    push_cast
    rw [mul_assoc, ← zpow_natCast, ← zpow_add₀ two_ne, Int.toNat_of_nonneg (by omega)]
    congr 2
    ring
  rcases hm.lt_or_eq with hlt | heq
  · refine scaled h (unitExponent_le fmt hn hd ht ?_)
    rw [h, zpow_add₀ two_ne, zpow_natCast, mul_comm]
    have : (m : ℚ) < 2 ^ fmt.precision := by exact_mod_cast hlt
    exact mul_lt_mul_of_pos_left this (two_zpow_pos t)
  · have h' : (n : ℚ) / d = ((2 ^ (fmt.precision - 1) : Nat) : ℚ) * 2 ^ (t + 1) := by
      rw [h, heq, zpow_add₀ two_ne]
      obtain ⟨p, hp'⟩ : ∃ p, fmt.precision = p + 1 := ⟨fmt.precision - 1, by omega⟩
      rw [hp']
      push_cast
      simp only [pow_succ]
      ring
    refine scaled h' (unitExponent_le fmt hn hd (by omega) ?_)
    rw [h']
    have : (((2 ^ (fmt.precision - 1) : Nat) : ℚ)) < 2 ^ fmt.precision := by
      push_cast
      exact pow_lt_pow_right₀ (by norm_num) (by omega)
    rw [show t + 1 + (fmt.precision : Int) = (fmt.precision : Int) + (t + 1) by ring,
      zpow_add₀ two_ne (fmt.precision : Int) (t + 1), zpow_natCast]
    exact mul_lt_mul_of_pos_right this (two_zpow_pos _)

/-- Rounding what rounding gave changes nothing. -/
theorem roundMagnitude_roundMagnitude (fmt : FloatFormat) (hp : 0 < fmt.precision) {n d : Nat} (hn : 0 < n) (hd : 0 < d)
    {r : ℚ} (hr : r = roundMagnitude fmt n d) (hpos : 0 < r) : roundMagnitude fmt r.num.natAbs r.den = r := by
  have hnum : 0 < r.num := Rat.num_pos.mpr hpos
  have hval : ((r.num.natAbs : Nat) : ℚ) / r.den = r := by
    have : ((r.num.natAbs : Nat) : ℚ) = (r.num : ℚ) := by
      rw [← Int.cast_natCast, Int.natAbs_of_nonneg hnum.le]
    rw [this, Rat.num_div_den]
  have hrn : 0 < r.num.natAbs := by omega
  obtain ⟨k, hk⟩ := whole_units fmt hrn r.den_pos (unitExponent_spec fmt hn hd).2 hp (roundUnits_le fmt hn hd)
    (by rw [hval, hr, roundMagnitude, scaledRat_eq])
  rw [roundMagnitude_exact fmt r.den_pos hk, hval]

theorem roundMagnitude_nonneg (fmt : FloatFormat) (n d : Nat) : 0 ≤ roundMagnitude fmt n d := by
  rw [roundMagnitude, scaledRat_eq]
  exact mul_nonneg (Nat.cast_nonneg _) (two_zpow_pos _).le

/-- Rounding gives an element of the format: rounding it once more gives it again. -/
theorem roundTo_roundTo (fmt : FloatFormat) (hp : 0 < fmt.precision) (z : Bool) (q : ℚ) {r : ℚ}
    (h : roundTo fmt z q = .lit r) : roundTo fmt false r = .lit r := by
  have fin_inj : ∀ {a b : ℚ}, Value.lit a = Value.lit b → a = b := by
    intro a b hab
    simpa [Value.lit] using hab
  by_cases hr0 : r = 0
  · subst hr0
    simp [roundTo, signedZero]
  unfold roundTo at h
  split at h
  · unfold signedZero at h
    split at h
    · simp [Value.lit] at h
    · exact absurd (fin_inj h).symm hr0
  rename_i hq0
  simp only at h
  split at h
  · simp [Value.lit] at h
  rename_i hno
  split at h
  · unfold signedZero at h
    split at h
    · simp [Value.lit] at h
    · exact absurd (fin_inj h).symm hr0
  rename_i hm0
  have hqn : 0 < q.num.natAbs := Int.natAbs_pos.mpr (Rat.num_ne_zero.mpr hq0)
  have hmag : 0 < roundMagnitude fmt q.num.natAbs q.den := lt_of_le_of_ne (roundMagnitude_nonneg _ _ _) (Ne.symm hm0)
  have hround := roundMagnitude_roundMagnitude fmt hp hqn q.den_pos rfl hmag
  have hr := (fin_inj h).symm
  have hmag_r : roundMagnitude fmt r.num.natAbs r.den = roundMagnitude fmt q.num.natAbs q.den := by
    rw [hr]
    split
    · simpa using hround
    · exact hround
  unfold roundTo
  rw [if_neg hr0]
  simp only [hmag_r, if_neg hno, if_neg hm0]
  congr 1
  by_cases hq : q < 0
  · have hr' : r = -roundMagnitude fmt q.num.natAbs q.den := by rw [hr, if_pos hq]
    have hneg : r < 0 := by rw [hr']; exact neg_lt_zero.mpr hmag
    rw [if_pos hneg, hr']
  · have hr' : r = roundMagnitude fmt q.num.natAbs q.den := by rw [hr, if_neg hq]
    have hnn : ¬ r < 0 := by rw [hr']; exact not_lt.mpr hmag.le
    rw [if_neg hnn, hr']

end Sys2Proof.Laws
end

