-- ==== Sys2Proof/Laws/Num.lean ====
section
/-! SUPPORT. The laws of the numeric carrier: the exact operations denote the real ones, every operation answers an element of
the carrier, and what not-a-number does. -/

namespace Sys2Proof.Laws

open Sys2Proof Sys2Proof.Machine

/-! ### Exact reals -/

@[simp] theorem denote_rat (q : ℚ) : denote (.rat q) = (q : ℝ) := rfl
@[simp] theorem denote_pi : denote .pi = Real.pi := rfl
@[simp] theorem denote_add (x y : Exact) : denote (.add x y) = denote x + denote y := rfl
@[simp] theorem denote_mul (x y : Exact) : denote (.mul x y) = denote x * denote y := rfl
@[simp] theorem denote_sin (x : Exact) : denote (.sin x) = Real.sin (denote x) := rfl

theorem denote_exactAdd (x y : Exact) : denote (exactAdd x y) = denote x + denote y := by
  unfold exactAdd
  split
  · simp
  · split <;> simp_all
  · split <;> simp_all
  · simp

theorem denote_exactMul (x y : Exact) : denote (exactMul x y) = denote x * denote y := by
  unfold exactMul
  split
  · simp
  · split
    · simp_all
    · split <;> simp_all
  · split
    · simp_all
    · split <;> simp_all
  · simp

theorem denote_exactSub (x y : Exact) : denote (exactSub x y) = denote x - denote y := by
  rw [exactSub, denote_exactAdd, denote_exactMul]
  simp
  ring

/-- Reducing by whole periods does not change the sine (40_advance_datapath.md R75 (a)). -/
theorem sin_pi_periodReduce (q : ℚ) : Real.sin (Real.pi * (periodReduce q : ℝ)) = Real.sin (Real.pi * q) := by
  have h : Real.pi * (periodReduce q : ℝ) = Real.pi * q - ((q / 2).floor : ℤ) * (2 * Real.pi) := by
    unfold periodReduce
    push_cast
    ring
  rw [h, Real.sin_sub_int_mul_two_pi]

theorem denote_exactSinPi (q : ℚ) : denote (exactSinPi q) = Real.sin (Real.pi * q) := by
  rw [← sin_pi_periodReduce]
  unfold exactSinPi
  generalize periodReduce q = r
  have half : Real.sin (Real.pi * (1 / 6)) = 1 / 2 := by
    rw [show Real.pi * (1 / 6) = Real.pi / 6 by ring, Real.sin_pi_div_six]
  have sub : ∀ x : ℝ, Real.sin (Real.pi * (1 - x)) = Real.sin (Real.pi * x) := by
    intro x
    rw [show Real.pi * (1 - x) = Real.pi - Real.pi * x by ring, Real.sin_pi_sub]
  have add : ∀ x : ℝ, Real.sin (Real.pi * (1 + x)) = -Real.sin (Real.pi * x) := by
    intro x
    rw [show Real.pi * (1 + x) = Real.pi * x + Real.pi by ring, Real.sin_add_pi]
  have quarter : Real.sin (Real.pi * (1 / 2)) = 1 := by
    rw [show Real.pi * (1 / 2) = Real.pi / 2 by ring, Real.sin_pi_div_two]
  have five : Real.sin (Real.pi * (5 / 6)) = 1 / 2 := by
    rw [show (5 / 6 : ℝ) = 1 - 1 / 6 by norm_num, sub, half]
  have three : Real.sin (Real.pi * (3 / 2)) = -1 := by
    rw [show (3 / 2 : ℝ) = 1 + 1 / 2 by norm_num, add, quarter]
  have seven : Real.sin (Real.pi * (7 / 6)) = -(1 / 2) := by
    rw [show (7 / 6 : ℝ) = 1 + 1 / 6 by norm_num, add, half]
  have eleven : Real.sin (Real.pi * (11 / 6)) = -(1 / 2) := by
    rw [show (11 / 6 : ℝ) = 1 + 5 / 6 by norm_num, add, five]
  simp only
  split_ifs with h0 h1 h2 h3 h4
  · rcases h0 with rfl | rfl <;> simp
  · subst h1; push_cast; simp only [quarter, denote_rat]; norm_num
  · subst h2; push_cast; simp only [three, denote_rat]; norm_num
  · rcases h3 with rfl | rfl <;> push_cast <;> simp only [half, five, denote_rat] <;> norm_num
  · rcases h4 with rfl | rfl <;> push_cast <;> simp only [seven, eleven, denote_rat] <;> norm_num
  · simp

theorem denote_exactSin (x : Exact) : denote (exactSin x) = Real.sin (denote x) := by
  unfold exactSin
  split
  · simp
  · simp [denote_exactSinPi]
  · split <;> simp_all
  · simp

/-! ### The operations answer elements of the carrier -/

theorem format_precision {k : NumKind} {fmt : FloatFormat} (h : k.format? = some fmt) : 0 < fmt.precision := by
  cases k <;> simp [NumKind.format?] at h <;> subst h <;> decide

theorem inCarrier_signedZero (k : NumKind) {fmt : FloatFormat} (hk : k.format? = some fmt) (z : Bool) :
    inCarrier k (signedZero z) = true := by
  cases z <;> simp [inCarrier, hk, signedZero, Value.lit, roundTo]

theorem inCarrier_roundTo {k : NumKind} {fmt : FloatFormat} (hk : k.format? = some fmt) (z : Bool) (q : ℚ) :
    inCarrier k (roundTo fmt z q) = true := by
  cases h : roundTo fmt z q with
  | fin x =>
    cases x with
    | rat r => simpa [inCarrier, hk] using roundTo_roundTo fmt (format_precision hk) z q h
    | pi | input | add | mul | sin =>
      unfold roundTo signedZero Value.lit at h
      simp only at h
      split_ifs at h <;> simp at h
  | negZero => simp [inCarrier, hk]
  | inf n => simp [inCarrier, hk]
  | nan => simp [inCarrier, hk]

theorem inCarrier_floatFinite2 {k : NumKind} {fmt : FloatFormat} (hk : k.format? = some fmt) (z : Bool)
    (op : ℚ → ℚ → ℚ) (x y : Value) : inCarrier k (floatFinite2 fmt z op x y) = true := by
  unfold floatFinite2
  split
  · exact inCarrier_roundTo hk _ _
  · simp [inCarrier, hk]

theorem inCarrier_floatAdd {k : NumKind} {fmt : FloatFormat} (hk : k.format? = some fmt) (x y : Value) :
    inCarrier k (floatAdd fmt x y) = true := by
  unfold floatAdd
  split
  · simp [inCarrier, hk]
  · simp [inCarrier, hk]
  · split <;> simp [inCarrier, hk]
  · simp [inCarrier, hk]
  · simp [inCarrier, hk]
  · exact inCarrier_floatFinite2 hk _ _ _ _

theorem inCarrier_floatMul {k : NumKind} {fmt : FloatFormat} (hk : k.format? = some fmt) (x y : Value) :
    inCarrier k (floatMul fmt x y) = true := by
  unfold floatMul floatMulInf
  split
  · simp [inCarrier, hk]
  · simp [inCarrier, hk]
  · split <;> simp [inCarrier, hk]
  · split <;> simp [inCarrier, hk]
  · exact inCarrier_floatFinite2 hk _ _ _ _

theorem inCarrier_exactLift2 {k : NumKind} (hk : k.format? = none) (op : Exact → Exact → Exact) {x y : Value}
    (hx : inCarrier k x = true) (hy : inCarrier k y = true) : inCarrier k (exactLift2 op x y) = true := by
  cases x <;> cases y <;> simp_all [inCarrier, exactLift2, Value.isReal]

theorem inCarrier_numAdd {k : NumKind} {x y : Value} (hx : inCarrier k x = true) (hy : inCarrier k y = true) :
    inCarrier k (numAdd k x y) = true := by
  unfold numAdd
  split
  · exact inCarrier_exactLift2 ‹_› _ hx hy
  · exact inCarrier_floatAdd ‹_› _ _

theorem inCarrier_numSub {k : NumKind} {x y : Value} (hx : inCarrier k x = true) (hy : inCarrier k y = true) :
    inCarrier k (numSub k x y) = true := by
  unfold numSub
  split
  · exact inCarrier_exactLift2 ‹_› _ hx hy
  · exact inCarrier_floatAdd ‹_› _ _

theorem inCarrier_numMul {k : NumKind} {x y : Value} (hx : inCarrier k x = true) (hy : inCarrier k y = true) :
    inCarrier k (numMul k x y) = true := by
  unfold numMul
  split
  · exact inCarrier_exactLift2 ‹_› _ hx hy
  · exact inCarrier_floatMul ‹_› _ _

theorem inCarrier_numSin {k : NumKind} {x : Value} (hx : inCarrier k x = true) : inCarrier k (numSin k x) = true := by
  unfold numSin
  split
  · cases x <;> simp_all [inCarrier, Value.isReal]
  · unfold floatSin
    split
    · exact inCarrier_roundTo ‹_› _ _
    · simp [inCarrier, *]

theorem inCarrier_numOfRat (k : NumKind) (q : ℚ) : inCarrier k (numOfRat k q) = true := by
  unfold numOfRat
  split
  · simp [inCarrier, *, Value.lit, Value.isReal]
  · exact inCarrier_roundTo ‹_› _ _

theorem inCarrier_numPi (k : NumKind) : inCarrier k (numPi k) = true := by
  cases k <;> decide +kernel

theorem inCarrier_zero (k : NumKind) : inCarrier k Value.zero = true := by
  cases k <;> decide +kernel

theorem inCarrier_one (k : NumKind) : inCarrier k (.lit 1) = true := by
  cases k <;> decide +kernel

theorem inCarrier_two (k : NumKind) : inCarrier k (.lit 2) = true := by
  cases k <;> decide +kernel

theorem inCarrier_intToV (k : NumKind) (b : Bool) : inCarrier k (intToV b) = true := by
  cases b
  · exact inCarrier_zero k
  · exact inCarrier_one k

theorem presentable_of_inCarrier {k : NumKind} {v : Value} (h : inCarrier k v = true) : presentable k v = true := by
  cases v <;> simp_all [presentable]

/-- In the exact-real instance the carrier is the real numbers. -/
@[simp] theorem inCarrier_exactReal (v : Value) : inCarrier .exactReal v = v.isReal := rfl

/-! ### The exact-real instance, as operations on expressions -/

@[simp] theorem numAdd_exactReal (x y : Exact) : numAdd .exactReal (.fin x) (.fin y) = .fin (exactAdd x y) := rfl
@[simp] theorem numSub_exactReal (x y : Exact) : numSub .exactReal (.fin x) (.fin y) = .fin (exactSub x y) := rfl
@[simp] theorem numMul_exactReal (x y : Exact) : numMul .exactReal (.fin x) (.fin y) = .fin (exactMul x y) := rfl
@[simp] theorem numSin_exactReal (x : Exact) : numSin .exactReal (.fin x) = .fin (exactSin x) := rfl
@[simp] theorem numPi_exactReal : numPi .exactReal = .fin .pi := rfl
@[simp] theorem numOfRat_exactReal (q : ℚ) : numOfRat .exactReal q = .fin (.rat q) := rfl

theorem exactAdd_zero_left (x : Exact) : exactAdd (.rat 0) x = x := by cases x <;> simp [exactAdd]
theorem exactAdd_zero_right (x : Exact) : exactAdd x (.rat 0) = x := by cases x <;> simp [exactAdd]
theorem exactMul_zero_left (x : Exact) : exactMul (.rat 0) x = .rat 0 := by cases x <;> simp [exactMul]
theorem exactMul_zero_right (x : Exact) : exactMul x (.rat 0) = .rat 0 := by cases x <;> simp [exactMul]
theorem exactMul_one_left (x : Exact) : exactMul (.rat 1) x = x := by cases x <;> simp [exactMul]
theorem exactMul_one_right (x : Exact) : exactMul x (.rat 1) = x := by cases x <;> simp [exactMul]

/-! ### Finite and non-finite data of a floating instance -/

/-- The finite data of a floating instance: a number, or the negative zero. -/
theorem floatRat?_eq_some {x : Value} {q : ℚ} (h : floatRat? x = some q) : x = .lit q ∨ x = .negZero ∧ q = 0 := by
  cases x with
  | fin e => cases e <;> simp_all [floatRat?, Value.lit]
  | negZero => simp_all [floatRat?]
  | inf n => simp [floatRat?] at h
  | nan => simp [floatRat?] at h


theorem floatAdd_nan_left (fmt : FloatFormat) (y : Value) : floatAdd fmt .nan y = .nan := rfl
theorem floatAdd_nan_right (fmt : FloatFormat) (x : Value) : floatAdd fmt x .nan = .nan := by cases x <;> rfl
theorem floatMul_nan_left (fmt : FloatFormat) (y : Value) : floatMul fmt .nan y = .nan := rfl
theorem floatMul_nan_right (fmt : FloatFormat) (x : Value) : floatMul fmt x .nan = .nan := by cases x <;> rfl

theorem numAdd_nan_left (k : NumKind) (y : Value) : numAdd k .nan y = .nan := by
  cases k <;> simp [numAdd, NumKind.format?, exactLift2, floatAdd_nan_left]
theorem numAdd_nan_right (k : NumKind) (x : Value) : numAdd k x .nan = .nan := by
  cases k <;> simp [numAdd, NumKind.format?, exactLift2, floatAdd_nan_right]
theorem numMul_nan_left (k : NumKind) (y : Value) : numMul k .nan y = .nan := by
  cases k <;> simp [numMul, NumKind.format?, exactLift2, floatMul_nan_left]
theorem numMul_nan_right (k : NumKind) (x : Value) : numMul k x .nan = .nan := by
  cases k <;> simp [numMul, NumKind.format?, exactLift2, floatMul_nan_right]

end Sys2Proof.Laws
end

