-- ==== Sys2Proof/Laws/Rom.lean ====
section
/-! SUPPORT. The laws of the ROM: what a lookup sees after a word is fitted, and that every operation keeps the canonical
form. -/

namespace Sys2Proof.Laws

open Sys2Proof Sys2Proof.Machine

/-- In a canonical memory the tail is canonical and every address in it lies above the head's. -/
theorem wf_cons {a : Nat} {w : RomWord} {m : Memory} :
    Memory.wf ((a, w) :: m) = true ↔ a < nRomWords ∧ Memory.wf m = true ∧ ∀ p ∈ m, a < p.1 := by
  induction m generalizing a w with
  | nil => simp [Memory.wf]
  | cons p m ih =>
    obtain ⟨b, x⟩ := p
    have step : Memory.wf ((a, w) :: (b, x) :: m) = true ↔ a < b ∧ Memory.wf ((b, x) :: m) = true := by
      simp [Memory.wf]
    rw [step]
    constructor
    · rintro ⟨hab, h⟩
      have h' := ih.mp h
      refine ⟨by omega, h, ?_⟩
      rintro q hq
      rcases List.mem_cons.mp hq with rfl | hq
      · exact hab
      · exact lt_trans hab (h'.2.2 q hq)
    · rintro ⟨_, h, hlt⟩
      exact ⟨hlt (b, x) (by simp), h⟩

/-- An address not above every listed one is not listed. -/
theorem romLookup_none_of_lt {m : Memory} {a : Nat} (h : ∀ p ∈ m, a < p.1) : romLookup m a = none := by
  induction m with
  | nil => rfl
  | cons p m ih =>
    obtain ⟨b, x⟩ := p
    have hb : a < b := h (b, x) (by simp)
    have hne : a ≠ b := by omega
    simp only [romLookup, if_neg hne]
    exact ih fun p hp => h p (by simp [hp])

/-- A fitted word is read back, and a word taken out is gone. -/
theorem romLookup_romReplace_self {m : Memory} (hm : Memory.wf m = true) (a : Nat) (v : Option RomWord) :
    romLookup (romReplace m a v) a = v := by
  induction m with
  | nil => cases v <;> simp [romReplace, romLookup]
  | cons p m ih =>
    obtain ⟨b, x⟩ := p
    obtain ⟨_, hwf, hlt⟩ := wf_cons.mp hm
    by_cases hab : a < b
    · have hne : a ≠ b := by omega
      have hnone : romLookup m a = none := romLookup_none_of_lt fun p hp => lt_trans hab (hlt p hp)
      cases v <;> simp [romReplace, romLookup, hab, hne, hnone]
    · by_cases heq : a = b
      · subst heq
        cases v <;> simp [romReplace, romLookup, romLookup_none_of_lt hlt]
      · simp [romReplace, romLookup, hab, heq, ih hwf]

/-- Fitting a word leaves every other address alone. -/
theorem romLookup_romReplace_other {m : Memory} {a b : Nat} (h : b ≠ a) (v : Option RomWord) :
    romLookup (romReplace m a v) b = romLookup m b := by
  induction m with
  | nil => cases v <;> simp [romReplace, romLookup, h]
  | cons p m ih =>
    obtain ⟨c, x⟩ := p
    by_cases hac : a < c
    · cases v <;> simp [romReplace, romLookup, hac, h]
    · by_cases heq : a = c
      · subst heq
        cases v <;> simp [romReplace, romLookup, h]
      · by_cases hbc : b = c <;> simp [romReplace, romLookup, hac, heq, hbc, ih]

/-- The addresses listed after a word is fitted. -/
theorem mem_romReplace {m : Memory} {a : Nat} {v : Option RomWord} {p : Nat × RomWord} (h : p ∈ romReplace m a v) :
    p.1 = a ∨ p ∈ m := by
  induction m with
  | nil => cases v <;> simp_all [romReplace]
  | cons q m ih =>
    obtain ⟨b, x⟩ := q
    by_cases hab : a < b
    · cases v <;> simp_all [romReplace]
      rcases h with rfl | h <;> simp_all
    · by_cases heq : a = b
      · cases v <;> simp_all [romReplace]
        rcases h with rfl | h <;> simp_all
      · simp only [romReplace, if_neg hab, if_neg heq, List.mem_cons] at h
        rcases h with rfl | h
        · simp
        · rcases ih h with h | h <;> simp [h]

theorem wf_romReplace {m : Memory} (hm : Memory.wf m = true) {a : Nat} (ha : a < nRomWords) (v : Option RomWord) :
    Memory.wf (romReplace m a v) = true := by
  induction m with
  | nil => cases v <;> simp [romReplace, Memory.wf, ha]
  | cons p m ih =>
    obtain ⟨b, x⟩ := p
    obtain ⟨hb, hwf, hlt⟩ := wf_cons.mp hm
    by_cases hab : a < b
    · cases v with
      | none => simpa [romReplace, hab] using hm
      | some w =>
        simp only [romReplace, if_pos hab]
        refine wf_cons.mpr ⟨ha, hm, ?_⟩
        intro q hq
        rcases List.mem_cons.mp hq with rfl | hq
        · exact hab
        · exact lt_trans hab (hlt q hq)
    · by_cases heq : a = b
      · subst heq
        cases v with
        | none => simpa [romReplace] using hwf
        | some w => simpa [romReplace] using wf_cons.mpr ⟨ha, hwf, hlt⟩
      · simp only [romReplace, if_neg hab, if_neg heq]
        refine wf_cons.mpr ⟨hb, ih hwf, ?_⟩
        intro q hq
        rcases mem_romReplace hq with h | h
        · omega
        · exact hlt q h

theorem wf_romStore {m : Memory} (hm : Memory.wf m = true) (a : Nat) (v : Option RomWord) :
    Memory.wf (romStore m a v) = true := by
  unfold romStore
  split
  · exact wf_romReplace hm ‹_› v
  · exact hm

theorem wf_romStoreIfIllegal {m : Memory} (hm : Memory.wf m = true) (a : Nat) (w : RomWord) :
    Memory.wf (romStoreIfIllegal m a w) = true := by
  unfold romStoreIfIllegal
  split
  · split
    · exact hm
    · exact wf_romStore hm a _
  · exact wf_romStore hm a _

theorem wf_romNumber {ws : List RomWord} {a : Nat} (h : a + ws.length ≤ nRomWords) :
    Memory.wf (romNumber a ws) = true ∧ ∀ p ∈ romNumber a ws, a ≤ p.1 := by
  induction ws generalizing a with
  | nil => simp [romNumber, Memory.wf]
  | cons w ws ih =>
    simp only [List.length_cons] at h
    obtain ⟨hwf, hge⟩ := ih (a := a + 1) (by omega)
    refine ⟨wf_cons.mpr ⟨by omega, hwf, fun p hp => by have := hge p hp; omega⟩, ?_⟩
    intro p hp
    rcases List.mem_cons.mp hp with rfl | hp
    · exact le_refl _
    · have := hge p hp
      omega

theorem wf_buildImage {ws : List RomWord} {m : Memory} (h : buildImage ws = some m) : Memory.wf m = true := by
  unfold buildImage at h
  split at h
  · rename_i hws
    cases h
    exact (wf_romNumber (by omega)).1
  · cases h

theorem wf_reset : Memory.wf State.reset.rom = true := rfl

theorem romLookup_romStore_self {m : Memory} (hm : Memory.wf m = true) {a : Nat} (ha : a < nRomWords)
    (v : Option RomWord) : romLookup (romStore m a v) a = v := by
  simp [romStore, ha, romLookup_romReplace_self hm]

theorem romLookup_romStore_other {m : Memory} {a b : Nat} (h : b ≠ a) (v : Option RomWord) :
    romLookup (romStore m a v) b = romLookup m b := by
  unfold romStore
  split
  · exact romLookup_romReplace_other h v
  · rfl

/-- Every address the engine presents exists (20_memory.md R35). -/
theorem romAddress_lt (alg : BitVec 5) (idx : Int) : romAddress alg idx < nRomWords := by
  have h := alg.isLt
  have h0 : 0 ≤ idx % 6 := Int.emod_nonneg _ (by decide)
  have h1 : idx % 6 < 6 := Int.emod_lt_of_pos _ (by decide)
  simp only [romAddress, nRomWords, nAlg, nOps, Nat.cast_ofNat]
  omega

/-- The prior word's address, in the form `(i + 5) mod 6` (20_memory.md R33). -/
theorem romAddress_prior (alg : BitVec 5) (i : OpIndex) :
    romAddress alg ((i.val : Int) - 1) = alg.toNat * 6 + (i.val + 5) % 6 := by
  have hi := i.isLt
  simp only [romAddress, nOps, Nat.cast_ofNat]
  omega

/-- The descriptor's address. -/
theorem romAddress_index (alg : BitVec 5) (i : OpIndex) : romAddress alg (i.val : Int) = alg.toNat * 6 + i.val := by
  have hi := i.isLt
  simp only [romAddress, nOps, Nat.cast_ofNat]
  omega

end Sys2Proof.Laws
end

