-- ==== Sys2Proof/Laws/State.lean ====
section
/-! SUPPORT. One lemma per field per named update of the state, so that no proof unfolds a record update. -/

namespace Sys2Proof.Laws

open Sys2Proof Sys2Proof.Machine

/-! ### `commitSlot` -/

variable (s : State) (i : OpIndex) (f : Value) (w : Wires) (v : Value) (r : FaultRecord)

@[simp] theorem commitSlot_phase : (commitSlot s i f w v).phase = s.phase.set i (nextPhase s.num s.phase[i] f) := rfl
@[simp] theorem commitSlot_mod : (commitSlot s i f w v).mod = v := rfl
@[simp] theorem commitSlot_feedback0 : (commitSlot s i f w v).feedback0 = w.tap0 := rfl
@[simp] theorem commitSlot_feedback1 : (commitSlot s i f w v).feedback1 = w.tap1 := rfl
@[simp] theorem commitSlot_mem : (commitSlot s i f w v).mem = w.newMemory := rfl
@[simp] theorem commitSlot_algorithmId : (commitSlot s i f w v).algorithmId = s.algorithmId := rfl
@[simp] theorem commitSlot_feedbackLevel : (commitSlot s i f w v).feedbackLevel = s.feedbackLevel := rfl
@[simp] theorem commitSlot_algorithmIdPend : (commitSlot s i f w v).algorithmIdPend = s.algorithmIdPend := rfl
@[simp] theorem commitSlot_feedbackLevelPend : (commitSlot s i f w v).feedbackLevelPend = s.feedbackLevelPend := rfl
@[simp] theorem commitSlot_slot : (commitSlot s i f w v).slot = nextSlot i := rfl
@[simp] theorem commitSlot_outValid : (commitSlot s i f w v).outValid = outValidAfter i := rfl
@[simp] theorem commitSlot_fault : (commitSlot s i f w v).fault = s.fault := rfl
@[simp] theorem commitSlot_num : (commitSlot s i f w v).num = s.num := rfl
@[simp] theorem commitSlot_mixMode : (commitSlot s i f w v).mixMode = s.mixMode := rfl
@[simp] theorem commitSlot_rom : (commitSlot s i f w v).rom = s.rom := rfl
@[simp] theorem commitSlot_freqIn : (commitSlot s i f w v).freqIn = s.freqIn := rfl
@[simp] theorem commitSlot_ampIn : (commitSlot s i f w v).ampIn = s.ampIn := rfl
@[simp] theorem commitSlot_ops : (commitSlot s i f w v).ops = s.ops := rfl
@[simp] theorem commitSlot_answers : (commitSlot s i f w v).answers = s.answers := rfl

/-! ### `setOps` -/

variable (l : List HostOp)

@[simp] theorem setOps_phase : (setOps s l).phase = s.phase := rfl
@[simp] theorem setOps_mod : (setOps s l).mod = s.mod := rfl
@[simp] theorem setOps_feedback0 : (setOps s l).feedback0 = s.feedback0 := rfl
@[simp] theorem setOps_feedback1 : (setOps s l).feedback1 = s.feedback1 := rfl
@[simp] theorem setOps_mem : (setOps s l).mem = s.mem := rfl
@[simp] theorem setOps_algorithmId : (setOps s l).algorithmId = s.algorithmId := rfl
@[simp] theorem setOps_feedbackLevel : (setOps s l).feedbackLevel = s.feedbackLevel := rfl
@[simp] theorem setOps_algorithmIdPend : (setOps s l).algorithmIdPend = s.algorithmIdPend := rfl
@[simp] theorem setOps_feedbackLevelPend : (setOps s l).feedbackLevelPend = s.feedbackLevelPend := rfl
@[simp] theorem setOps_slot : (setOps s l).slot = s.slot := rfl
@[simp] theorem setOps_outValid : (setOps s l).outValid = s.outValid := rfl
@[simp] theorem setOps_fault : (setOps s l).fault = s.fault := rfl
@[simp] theorem setOps_num : (setOps s l).num = s.num := rfl
@[simp] theorem setOps_mixMode : (setOps s l).mixMode = s.mixMode := rfl
@[simp] theorem setOps_rom : (setOps s l).rom = s.rom := rfl
@[simp] theorem setOps_freqIn : (setOps s l).freqIn = s.freqIn := rfl
@[simp] theorem setOps_ampIn : (setOps s l).ampIn = s.ampIn := rfl
@[simp] theorem setOps_ops : (setOps s l).ops = l := rfl
@[simp] theorem setOps_answers : (setOps s l).answers = s.answers := rfl
theorem setOps_eq : setOps s l = { s with ops := l } := rfl
theorem raise_setOps : raise (setOps s l) r = setOps (raise s r) l := by
  by_cases h : s.fault = .none <;> simp [raise, h, setOps]

/-! ### `raise` -/

@[simp] theorem raise_phase : (raise s r).phase = s.phase := by unfold raise; split <;> rfl
@[simp] theorem raise_mod : (raise s r).mod = s.mod := by unfold raise; split <;> rfl
@[simp] theorem raise_feedback0 : (raise s r).feedback0 = s.feedback0 := by unfold raise; split <;> rfl
@[simp] theorem raise_feedback1 : (raise s r).feedback1 = s.feedback1 := by unfold raise; split <;> rfl
@[simp] theorem raise_mem : (raise s r).mem = s.mem := by unfold raise; split <;> rfl
@[simp] theorem raise_algorithmId : (raise s r).algorithmId = s.algorithmId := by unfold raise; split <;> rfl
@[simp] theorem raise_feedbackLevel : (raise s r).feedbackLevel = s.feedbackLevel := by unfold raise; split <;> rfl
@[simp] theorem raise_algorithmIdPend : (raise s r).algorithmIdPend = s.algorithmIdPend := by unfold raise; split <;> rfl
@[simp] theorem raise_feedbackLevelPend : (raise s r).feedbackLevelPend = s.feedbackLevelPend := by unfold raise; split <;> rfl
@[simp] theorem raise_slot : (raise s r).slot = s.slot := by unfold raise; split <;> rfl
@[simp] theorem raise_outValid : (raise s r).outValid = s.outValid := by unfold raise; split <;> rfl
theorem raise_fault_of_none (h : s.fault = .none) : (raise s r).fault = r := by simp [raise, h]
theorem raise_of_none (h : s.fault = .none) : raise s r = { s with fault := r } := by simp [raise, h]
theorem raise_of_ne_none (h : s.fault ≠ .none) : raise s r = s := by simp [raise, h]
@[simp] theorem raise_num : (raise s r).num = s.num := by unfold raise; split <;> rfl
@[simp] theorem raise_mixMode : (raise s r).mixMode = s.mixMode := by unfold raise; split <;> rfl
@[simp] theorem raise_rom : (raise s r).rom = s.rom := by unfold raise; split <;> rfl
@[simp] theorem raise_freqIn : (raise s r).freqIn = s.freqIn := by unfold raise; split <;> rfl
@[simp] theorem raise_ampIn : (raise s r).ampIn = s.ampIn := by unfold raise; split <;> rfl
@[simp] theorem raise_ops : (raise s r).ops = s.ops := by unfold raise; split <;> rfl
@[simp] theorem raise_answers : (raise s r).answers = s.answers := by unfold raise; split <;> rfl

/-! ### `latch` -/

@[simp] theorem latch_algorithmId : (latch s i).algorithmId = fetchRow s i := by unfold latch fetchRow; split <;> rfl
@[simp] theorem latch_feedbackLevel :
    (latch s i).feedbackLevel = if i = 0 then s.feedbackLevelPend else s.feedbackLevel := by unfold latch; split <;> rfl
@[simp] theorem latch_phase : (latch s i).phase = s.phase := by unfold latch; split <;> rfl
@[simp] theorem latch_mod : (latch s i).mod = s.mod := by unfold latch; split <;> rfl
@[simp] theorem latch_feedback0 : (latch s i).feedback0 = s.feedback0 := by unfold latch; split <;> rfl
@[simp] theorem latch_feedback1 : (latch s i).feedback1 = s.feedback1 := by unfold latch; split <;> rfl
@[simp] theorem latch_mem : (latch s i).mem = s.mem := by unfold latch; split <;> rfl
@[simp] theorem latch_algorithmIdPend : (latch s i).algorithmIdPend = s.algorithmIdPend := by unfold latch; split <;> rfl
@[simp] theorem latch_feedbackLevelPend : (latch s i).feedbackLevelPend = s.feedbackLevelPend := by unfold latch; split <;> rfl
@[simp] theorem latch_slot : (latch s i).slot = s.slot := by unfold latch; split <;> rfl
@[simp] theorem latch_outValid : (latch s i).outValid = s.outValid := by unfold latch; split <;> rfl
@[simp] theorem latch_fault : (latch s i).fault = s.fault := by unfold latch; split <;> rfl
@[simp] theorem latch_num : (latch s i).num = s.num := by unfold latch; split <;> rfl
@[simp] theorem latch_mixMode : (latch s i).mixMode = s.mixMode := by unfold latch; split <;> rfl
@[simp] theorem latch_rom : (latch s i).rom = s.rom := by unfold latch; split <;> rfl
@[simp] theorem latch_freqIn : (latch s i).freqIn = s.freqIn := by unfold latch; split <;> rfl
@[simp] theorem latch_ampIn : (latch s i).ampIn = s.ampIn := by unfold latch; split <;> rfl
@[simp] theorem latch_ops : (latch s i).ops = s.ops := by unfold latch; split <;> rfl
@[simp] theorem latch_answers : (latch s i).answers = s.answers := by unfold latch; split <;> rfl

/-! ### `resetEngine` -/

@[simp] theorem resetEngine_phase : (resetEngine s).phase = Vector.replicate 6 Value.zero := rfl
@[simp] theorem resetEngine_mod : (resetEngine s).mod = Value.zero := rfl
@[simp] theorem resetEngine_feedback0 : (resetEngine s).feedback0 = Value.zero := rfl
@[simp] theorem resetEngine_feedback1 : (resetEngine s).feedback1 = Value.zero := rfl
@[simp] theorem resetEngine_mem : (resetEngine s).mem = Value.zero := rfl
@[simp] theorem resetEngine_algorithmId : (resetEngine s).algorithmId = 0 := rfl
@[simp] theorem resetEngine_feedbackLevel : (resetEngine s).feedbackLevel = Value.zero := rfl
@[simp] theorem resetEngine_algorithmIdPend : (resetEngine s).algorithmIdPend = 0 := rfl
@[simp] theorem resetEngine_feedbackLevelPend : (resetEngine s).feedbackLevelPend = Value.zero := rfl
@[simp] theorem resetEngine_slot : (resetEngine s).slot = 0 := rfl
@[simp] theorem resetEngine_outValid : (resetEngine s).outValid = false := rfl
@[simp] theorem resetEngine_fault : (resetEngine s).fault = .none := rfl
@[simp] theorem resetEngine_num : (resetEngine s).num = s.num := rfl
@[simp] theorem resetEngine_mixMode : (resetEngine s).mixMode = s.mixMode := rfl
@[simp] theorem resetEngine_rom : (resetEngine s).rom = s.rom := rfl
@[simp] theorem resetEngine_freqIn : (resetEngine s).freqIn = Vector.replicate 6 none := rfl
@[simp] theorem resetEngine_ampIn : (resetEngine s).ampIn = Vector.replicate 6 none := rfl
@[simp] theorem resetEngine_ops : (resetEngine s).ops = s.ops := rfl
@[simp] theorem resetEngine_answers : (resetEngine s).answers = s.answers := rfl

end Sys2Proof.Laws
end

