-- ==== Sys2Proof/Laws/Ops.lean ====
section
/-! SUPPORT. What the shared operations, the instructions and a step can do, each said once. -/

namespace Sys2Proof.Laws

open Sys2Proof Sys2Proof.Machine

variable {s t : State} {i : OpIndex} {f amp : Value}

theorem slotIndex?_eq_some {b : BitVec 3} {i : OpIndex} : slotIndex? b = some i ↔ b.toNat = i.val := by
  unfold slotIndex?
  split
  · simp [Fin.ext_iff]
  · simp only [reduceCtorEq, false_iff]
    have := i.isLt
    omega

theorem slotIndex?_eq_none {b : BitVec 3} : slotIndex? b = none ↔ 6 ≤ b.toNat := by
  unfold slotIndex?
  split <;> simp <;> omega

theorem priorWord_eq (s : State) (i : OpIndex) :
    priorWord s i = romLookup s.rom ((if i = 0 then s.algorithmIdPend else s.algorithmId).toNat * 6 + (i.val + 5) % 6) := by
  rw [priorWord, romRead, romAddress_prior, fetchRow]

theorem descriptorWord_eq (s : State) (i : OpIndex) :
    descriptorWord s i = romLookup s.rom ((if i = 0 then s.algorithmIdPend else s.algorithmId).toNat * 6 + i.val) := by
  rw [descriptorWord, romRead, romAddress_index, fetchRow]

/-- The three things the reads of the ports can do. -/
theorem withInputs_cases (s : State) (i : OpIndex) (body : Value → Value → StepResult) :
    (∃ f amp, s.freqIn[i] = some f ∧ s.ampIn[i] = some amp ∧ (s.num = .exactReal → f.isReal = true) ∧
        (s.num = .exactReal → amp.isReal = true) ∧ withInputs s i body = body f amp) ∨
      (∃ p v, withInputs s i body = .next (raise s (.nonFinite p v))) ∨
      withInputs s i body = .fault (.inputUndriven i) := by
  unfold withInputs
  split
  · rename_i f amp hf ha
    split
    · exact .inr (.inl ⟨_, _, rfl⟩)
    · split
      · exact .inr (.inl ⟨_, _, rfl⟩)
      · rename_i h1 h2
        exact .inl ⟨f, amp, hf, ha, by simpa using h1, by simpa using h2, rfl⟩
  · exact .inr (.inr rfl)

/-- With both ports driven by what the instance takes, the reads go through. -/
theorem withInputs_driven {body : Value → Value → StepResult} (hf : s.freqIn[i] = some f) (ha : s.ampIn[i] = some amp)
    (rf : s.num = .exactReal → f.isReal = true) (ra : s.num = .exactReal → amp.isReal = true) :
    withInputs s i body = body f amp := by
  unfold withInputs
  rw [hf, ha]
  simp only
  rw [if_neg (by rintro ⟨h, h'⟩; simp [rf h] at h'), if_neg (by rintro ⟨h, h'⟩; simp [ra h] at h')]

/-- What an `ADVANCE` can do when it answers a next state: nothing (a fault stands), a raise, or the whole slot. -/
theorem advanceWith_next {instr : Instr} {route : Wires → Value} (h : advanceWith instr route s = .next t) :
    (s.fault ≠ .none ∧ t = s) ∨ (s.fault = .none ∧ ∃ r, t = raise s r) ∨
      ∃ i f amp prior, Enabled s i f amp prior ∧ instr.wf = true ∧ t = performSlot s i f amp prior.com instr route := by
  unfold advanceWith at h
  split at h
  · rename_i hfault
    split at h
    · cases h
      exact .inr (.inl ⟨hfault, _, rfl⟩)
    · rename_i i hslot
      rcases withInputs_cases s i _ with ⟨f, amp, hf, ha, rf, ra, e⟩ | ⟨p, v, e⟩ | e
      · rw [e] at h
        split at h
        · rename_i hwf
          unfold withPriorCom at h
          split at h
          · cases h
          · rename_i w hw
            split at h
            · rename_i prior hdec
              cases h
              refine .inr (.inr ⟨i, f, amp, prior, ⟨hfault, slotIndex?_eq_some.mp hslot, hf, ha, rf, ra, w, ?_, hdec⟩,
                hwf, rfl⟩)
              rw [← priorWord_eq, hw]
            · cases h
              exact .inr (.inl ⟨hfault, _, rfl⟩)
        · cases h
          exact .inr (.inl ⟨hfault, _, rfl⟩)
      · rw [e] at h
        cases h
        exact .inr (.inl ⟨hfault, _, rfl⟩)
      · rw [e] at h
        cases h
  · rename_i hfault
    cases h
    exact .inl ⟨hfault, rfl⟩

/-- An enabled slot is performed. -/
theorem advanceWith_enabled {prior : Instr} {instr : Instr} (route : Wires → Value) (h : Enabled s i f amp prior)
    (hwf : instr.wf = true) : advanceWith instr route s = .next (performSlot s i f amp prior.com instr route) := by
  obtain ⟨w, hw, hdec⟩ := h.priorFetched
  rw [← priorWord_eq] at hw
  unfold advanceWith
  rw [if_pos h.noFault, slotIndex?_eq_some.mpr h.atSlot]
  simp only
  rw [withInputs_driven h.freqDriven h.ampDriven h.freqReal h.ampReal, if_pos hwf]
  simp [withPriorCom, hw, hdec]

/-- The router of each instruction. -/
def routeOf : Instr → Wires → Value
  | .none _ _ _ _ => routeNone
  | .self _ _ _ _ => routeSelf
  | .mem _ _ _ _ => routeMem
  | .pmem _ _ _ _ => routePmem
  | .fb _ _ _ _ => routeFb
  | .fbmix _ _ _ _ => routeFbmix

/-- Every instruction is the common step with its router (41_selector_instructions.md R96). -/
theorem exec_eq_advanceWith (instr : Instr) (s : State) : exec instr s = advanceWith instr (routeOf instr) s := by
  cases instr <;> rfl

/-- What a step request `ADVANCE i` can do when it answers a next state. -/
theorem opAdvance_next {n : Int} (h : opAdvance n s = .next t) :
    (s.fault ≠ .none ∧ t = s) ∨ (s.fault = .none ∧ ∃ r, t = raise s r) ∨
      ∃ i f amp prior instr, Enabled s i f amp prior ∧ instr.wf = true ∧
        (∃ w, descriptorWord s i = some w ∧ decode w = .ok instr) ∧
        t = performSlot s i f amp prior.com instr (routeOf instr) := by
  unfold opAdvance at h
  split at h
  · rename_i hfault
    split at h
    · cases h
      exact .inr (.inl ⟨hfault, _, rfl⟩)
    · rename_i k hslot
      split at h
      · unfold fetchAndExec at h
        split at h
        · rcases withInputs_cases s k (fun _ _ => .fault (.romAbsent (romAddress (fetchRow s k) k.val))) with
            ⟨f, amp, _, _, _, _, e⟩ | ⟨p, v, e⟩ | e <;> rw [e] at h <;> cases h
          exact .inr (.inl ⟨hfault, _, rfl⟩)
        · rename_i w hw
          split at h
          · rename_i instr hdec
            rw [exec_eq_advanceWith] at h
            rcases advanceWith_next h with h1 | h1 | ⟨i, f, amp, prior, hen, hwf, ht⟩
            · exact .inl h1
            · exact .inr (.inl h1)
            · refine .inr (.inr ⟨i, f, amp, prior, instr, hen, hwf, ⟨w, ?_, hdec⟩, ht⟩)
              have hik : i = k := by
                have := slotIndex?_eq_some.mp hslot
                exact Fin.ext (hen.atSlot.symm.trans this)
              rw [hik, hw]
          · rcases withInputs_cases s k (fun _ _ => .next (raise s (.romReserved (fetchRow s k) k w))) with
              ⟨f, amp, _, _, _, _, e⟩ | ⟨p, v, e⟩ | e <;> rw [e] at h <;> cases h <;>
              exact .inr (.inl ⟨hfault, _, rfl⟩)
      · cases h
        exact .inr (.inl ⟨hfault, _, rfl⟩)
  · rename_i hfault
    cases h
    exact .inl ⟨hfault, rfl⟩

/-- Everything one move can do when it answers a next state. -/
theorem performOp_next {op : HostOp} (h : performOp op s = .next t) :
    (t = s) ∨ (s.fault = .none ∧ ∃ r, t = raise s r) ∨
      (∃ i f amp prior instr, Enabled s i f amp prior ∧ instr.wf = true ∧
        (∃ w, descriptorWord s i = some w ∧ decode w = .ok instr) ∧
        t = performSlot s i f amp prior.com instr (routeOf instr)) ∨
      (∃ i fr am, op = .drive i fr am ∧ (∀ v, fr = some v → presentable s.num v = true) ∧
        (∀ v, am = some v → presentable s.num v = true) ∧
        t = { s with freqIn := s.freqIn.set i fr, ampIn := s.ampIn.set i am }) ∨
      (∃ a, op = .rdout ∧ t = { s with answers := a :: s.answers }) ∨
      (∃ v : Int, op = .wralg v ∧ 0 ≤ v ∧ v < 32 ∧ t = { s with algorithmIdPend := BitVec.ofInt 5 v }) ∨
      (∃ v, op = .wrfbl v ∧ inCarrier s.num v = true ∧ t = { s with feedbackLevelPend := v }) ∨
      (op = .reset ∧ s.fault ≠ .none ∧ t = resetEngine s) := by
  have raised : ∀ r, t = raise s r → (t = s) ∨ (s.fault = .none ∧ ∃ r, t = raise s r) := by
    intro r ht
    by_cases hf : s.fault = .none
    · exact .inr ⟨hf, r, ht⟩
    · exact .inl (ht.trans (raise_of_ne_none s r hf))
  cases op with
  | drive i fr am =>
    simp only [performOp, opDrive] at h
    split at h <;> cases h
    rename_i h1 h2
    refine .inr (.inr (.inr (.inl ⟨i, fr, am, rfl, ?_, ?_, rfl⟩)))
    · rintro v rfl
      simpa [Option.filter] using h1
    · rintro v rfl
      simpa [Option.filter] using h2
  | advance n =>
    rcases opAdvance_next h with ⟨_, h⟩ | h | h
    · exact .inl h
    · exact .inr (.inl h)
    · exact .inr (.inr (.inl h))
  | rdout =>
    simp only [performOp, opRdout] at h
    split at h <;> cases h <;> exact .inr (.inr (.inr (.inr (.inl ⟨_, rfl, rfl⟩))))
  | wralg v =>
    simp only [performOp, opWralg] at h
    split at h <;> cases h
    · rename_i hv
      exact .inr (.inr (.inr (.inr (.inr (.inl ⟨v, rfl, hv.1, by simpa [nAlg] using hv.2, rfl⟩)))))
    · rcases raised _ rfl with h | h
      · exact .inl h
      · exact .inr (.inl h)
  | wrfbl v =>
    simp only [performOp, opWrfbl] at h
    split at h
    · cases h
      exact .inr (.inr (.inr (.inr (.inr (.inr (.inl ⟨v, rfl, ‹_›, rfl⟩))))))
    · split at h <;> cases h
      rcases raised _ rfl with h | h
      · exact .inl h
      · exact .inr (.inl h)
  | reset =>
    simp only [performOp, opReset] at h
    split at h <;> cases h
    exact .inr (.inr (.inr (.inr (.inr (.inr (.inr ⟨rfl, ‹_›, rfl⟩))))))

/-- A step that answers a next state makes the next requested move. -/
theorem step_next (h : step s = .next t) :
    ∃ op rest, s.ops = op :: rest ∧ performOp op (setOps s rest) = .next t := by
  unfold step stepOp at h
  split at h
  · cases h
  · exact ⟨_, _, ‹_›, h⟩

theorem step_cons {op : HostOp} {rest : List HostOp} (h : s.ops = op :: rest) :
    step s = performOp op (setOps s rest) := by
  unfold step stepOp
  rw [h]

end Sys2Proof.Laws
end

