-- ==== Sys2Proof/Laws/Datapath.lean ====
section
/-! SUPPORT. The datapath of a slot: its operations stay in the carrier, the sample over the reals, what commutes with a slot, and
how runs are put together. -/

namespace Sys2Proof.Laws

open Sys2Proof Sys2Proof.Machine

variable {s t : State} {i : OpIndex} {f amp : Value} {k : NumKind}

/-! ### The carrier -/

theorem isReal_iff {v : Value} : v.isReal = true ↔ ∃ x, v = .fin x := by
  cases v <;> simp [Value.isReal]

/-- What stands at a port and passes the check of 60_exceptions.md R126 is an element of the carrier. -/
theorem inCarrier_of_presentable {v : Value} (hp : presentable k v = true) (hr : k = .exactReal → v.isReal = true) :
    inCarrier k v = true := by
  cases k with
  | exactReal => exact hr rfl
  | binary32 => cases v <;> simp_all [presentable] <;> rfl
  | binary64 => cases v <;> simp_all [presentable] <;> rfl

theorem inCarrier_nextPhase {p : Value} (hp : inCarrier k p = true) (hf : inCarrier k f = true) :
    inCarrier k (nextPhase k p f) = true := by
  unfold nextPhase
  split
  · exact inCarrier_numSub (inCarrier_numAdd hp hf) (inCarrier_two k)
  · exact inCarrier_numAdd hp hf

theorem inCarrier_sampleOf {p m : Value} {com : BitVec 3} (hp : inCarrier k p = true) (hm : inCarrier k m = true)
    (ha : inCarrier k amp = true) : inCarrier k (sampleOf k p m amp com) = true := by
  have hmod := inCarrier_numMul (inCarrier_numOfRat k kModExact) hm
  have hsin := inCarrier_numSin (inCarrier_numMul (inCarrier_numPi k) (inCarrier_numAdd hp hmod))
  exact inCarrier_numMul (inCarrier_numMul hsin ha) (inCarrier_numOfRat k _)

theorem inCarrier_newMemoryOf {mode : MixMode} {c d : Bool} {m x : Value} (hm : inCarrier k m = true)
    (hx : inCarrier k x = true) : inCarrier k (newMemoryOf k mode c d m x) = true := by
  unfold newMemoryOf
  split
  · exact inCarrier_numAdd (inCarrier_numMul (inCarrier_intToV k _) hm) (inCarrier_numMul (inCarrier_intToV k _) hx)
  · split
    · exact inCarrier_zero k
    · exact hm
    · exact hx
    · exact inCarrier_numAdd hm hx

/-- Each router picks or computes an element of the carrier. -/
theorem inCarrier_routeOf {instr : Instr} {w : Wires} (h1 : inCarrier w.num w.sample = true)
    (h2 : inCarrier w.num w.newMemory = true) (h3 : inCarrier w.num w.oldMem = true)
    (h4 : inCarrier w.num w.tap0 = true) (h5 : inCarrier w.num w.tap1 = true) (h6 : inCarrier w.num w.level = true) :
    inCarrier w.num (routeOf instr w) = true := by
  cases instr with
  | none => exact inCarrier_zero _
  | self => exact h1
  | mem => exact h2
  | pmem => exact h3
  | fb => exact h4
  | fbmix => exact inCarrier_numMul (inCarrier_numMul h6 (inCarrier_numAdd h4 h5)) (inCarrier_numOfRat _ _)

/-! ### The sample over the reals -/

/-- On real operands the sample is real and denotes the formula of 40_advance_datapath.md R74. -/
theorem sampleOf_exactReal (p m am : Exact) (com : BitVec 3) :
    ∃ z, sampleOf .exactReal (.fin p) (.fin m) (.fin am) com = .fin z ∧
      denote z = Real.sin (Real.pi * (denote p + 3.85 * denote m)) * denote am * (1 / ((com.toNat : ℝ) + 1)) := by
  simp only [sampleOf, numKMod, numOfRat_exactReal, numMul_exactReal, numAdd_exactReal, numPi_exactReal, numSin_exactReal,
    attenuation, numRecip]
  refine ⟨_, rfl, ?_⟩
  simp only [denote_exactMul, denote_exactSin, denote_exactAdd, denote_rat, denote_pi, kModExact]
  push_cast
  norm_num

/-- The comparison of the exact-real instance is the order of the reals. -/
theorem numGt_exactReal (x y : Exact) : numGt .exactReal (.fin x) (.fin y) = true ↔ denote x > denote y := exactGt_iff x y

/-- On real operands the next phase is real: the sum, less 2 exactly when it exceeds 1 (40_advance_datapath.md R72). -/
theorem nextPhase_exactReal (x g : Exact) :
    ∃ y, nextPhase .exactReal (.fin x) (.fin g) = .fin y ∧
      (denote x + denote g ≤ 1 ∧ denote y = denote x + denote g ∨
        1 < denote x + denote g ∧ denote y = denote x + denote g - 2) := by
  have order := numGt_exactReal (exactAdd x g) (.rat 1)
  rw [denote_exactAdd] at order
  unfold nextPhase
  rw [numAdd_exactReal]
  split
  · rename_i h
    refine ⟨_, numSub_exactReal _ _, .inr ⟨by simpa using order.mp h, ?_⟩⟩
    rw [denote_exactSub, denote_exactAdd]
    simp
  · rename_i h
    exact ⟨_, rfl, .inl ⟨by simpa using mt order.mpr h, denote_exactAdd _ _⟩⟩

/-! ### Steps -/

/-- With a port undriven the reads are stuck. -/
theorem withInputs_undriven {body : Value → Value → StepResult} (h : s.freqIn[i] = none ∨ s.ampIn[i] = none) :
    withInputs s i body = .fault (.inputUndriven i) := by
  unfold withInputs
  rcases h with h | h
  · rw [h]
  · rw [h]
    split
    · rename_i h2
      cases h2
    · rfl

/-- `ADVANCE slot` with no fault recorded is the fetch and the execution. -/
theorem opAdvance_atSlot (hf : s.fault = .none) (hs : s.slot.toNat = i.val) :
    opAdvance (i.val : Int) s = fetchAndExec s i := by
  simp [opAdvance, hf, slotIndex?_eq_some.mpr hs]

theorem legalWord_iff (w : RomWord) : legalWord w = true ↔ ∃ instr, decode w = .ok instr := by
  unfold legalWord
  split <;> simp_all

/-- A change `g` of the state that leaves what the checks read, and commutes with a raise and with the slot's effect, commutes
with the whole `ADVANCE`. -/
theorem advanceWith_map (g : State → State) {instr : Instr} {route : Wires → Value} (hfault : (g s).fault = s.fault)
    (hslot : (g s).slot = s.slot) (hnum : (g s).num = s.num) (hfreq : (g s).freqIn = s.freqIn)
    (hamp : (g s).ampIn = s.ampIn) (hrom : (g s).rom = s.rom) (hraise : ∀ r, raise (g s) r = g (raise s r))
    (hrow : ∀ i, slotIndex? s.slot = some i → fetchRow (g s) i = fetchRow s i)
    (hperf : ∀ i f amp c, slotIndex? s.slot = some i →
      performSlot (g s) i f amp c instr route = g (performSlot s i f amp c instr route))
    (h : advanceWith instr route s = .next t) : advanceWith instr route (g s) = .next (g t) := by
  unfold advanceWith at h ⊢
  rw [hfault, hslot]
  by_cases hf : s.fault = .none
  · rw [if_pos hf] at h ⊢
    cases hs : slotIndex? s.slot with
    | none =>
      simp only [hs] at h ⊢
      cases h
      rw [hraise]
    | some i =>
      simp only [hs] at h ⊢
      unfold withInputs at h ⊢
      rw [hfreq, hamp]
      cases h1 : s.freqIn[i] with
      | none => simp [h1] at h
      | some f =>
        cases h2 : s.ampIn[i] with
        | none => simp [h1, h2] at h
        | some amp =>
          simp only [h1, h2, hnum, hraise] at h ⊢
          by_cases c1 : s.num = .exactReal ∧ f.isReal = false
          · rw [if_pos c1] at h ⊢
            cases h
            rfl
          rw [if_neg c1] at h ⊢
          by_cases c2 : s.num = .exactReal ∧ amp.isReal = false
          · rw [if_pos c2] at h ⊢
            cases h
            rfl
          rw [if_neg c2, hrow i hs] at *
          by_cases c3 : instr.wf = true
          · rw [if_pos c3] at h ⊢
            unfold withPriorCom at h ⊢
            have e : priorWord (g s) i = priorWord s i := by simp only [priorWord, hrom, hrow i hs]
            rw [e, hrow i hs]
            cases hw : priorWord s i with
            | none => simp [hw] at h
            | some w =>
              simp only [hw] at h ⊢
              cases hd : decode w with
              | ok p =>
                simp only [hd] at h ⊢
                cases h
                rw [hperf _ _ _ _ hs]
              | error e =>
                simp only [hd] at h ⊢
                cases h
                rw [hraise]
          · rw [if_neg c3] at h ⊢
            cases h
            rfl
  · rw [if_neg hf] at h ⊢
    cases h
    rfl

/-- A run of `a + b` steps is a run of `b` steps after one of `a`. -/
theorem run_add (M : Host.Core) (a b : Nat) {u v : M.State} (h : M.run a u = .next v) : M.run (a + b) u = M.run b v := by
  induction a generalizing u with
  | zero =>
    simp only [Host.Core.run] at h
    cases h
    simp
  | succ a ih =>
    rw [show a + 1 + b = (a + b) + 1 by omega]
    simp only [Host.Core.run] at h ⊢
    cases hs : M.step u with
    | next w =>
      simp only [hs] at h ⊢
      exact ih h
    | fault r => simp [hs] at h
    | refused r => simp [hs] at h

/-! ### The fitted word -/

theorem romLookup_romStoreIfIllegal_other {m : Memory} {a b : Nat} {w : RomWord} (h : b ≠ a) :
    romLookup (romStoreIfIllegal m a w) b = romLookup m b := by
  unfold romStoreIfIllegal
  split
  · split
    · rfl
    · exact romLookup_romStore_other h _
  · exact romLookup_romStore_other h _

theorem romLookup_romStoreIfIllegal_self {m : Memory} (hm : Memory.wf m = true) {a : Nat} (ha : a < nRomWords) :
    ∃ w, romLookup (romStoreIfIllegal m a blankWord) a = some w ∧ legalWord w = true := by
  unfold romStoreIfIllegal
  split
  · split
    · exact ⟨_, ‹_›, ‹_›⟩
    · exact ⟨blankWord, romLookup_romStore_self hm ha _, by decide⟩
  · exact ⟨blankWord, romLookup_romStore_self hm ha _, by decide⟩

/-- A well-formed image holds a legal word at every address that exists. -/
theorem wellFormedImage_lookup {m : Memory} (h : wellFormedImage m = true) {a : Nat} (ha : a < nRomWords) :
    ∃ w instr, romLookup m a = some w ∧ decode w = .ok instr := by
  unfold wellFormedImage at h
  simp only [Bool.and_eq_true, List.all_eq_true, List.mem_range] at h
  have hw := h.2 a ha
  split at hw
  · rename_i w hlook
    obtain ⟨instr, hi⟩ := (legalWord_iff w).mp hw
    exact ⟨w, instr, hlook, hi⟩
  · cases hw

end Sys2Proof.Laws
end

