-- ==== Sys2Proof/Laws/PerInstr.lean ====
section
/-! SUPPORT. Facts about every instruction as syntax, one lemma per constructor: what the decoder's field extractions read from
an encoded instruction (30_encoding.md R50). -/

namespace Sys2Proof.Laws

/-- The five fields of an instruction's word are the instruction's. -/
def EncodeFields.Statement (i : Instr) : Prop :=
  wordSel (encode i) = i.sel ∧ wordA (encode i) = i.a ∧ wordC (encode i) = i.c ∧ wordD (encode i) = i.d ∧
    wordCom (encode i) = i.com

theorem EncodeFields.none (a c d : Bool) (com : BitVec 3) : EncodeFields.Statement (.none a c d com) := by
  unfold EncodeFields.Statement; revert a c d com; decide

theorem EncodeFields.self (a c d : Bool) (com : BitVec 3) : EncodeFields.Statement (.self a c d com) := by
  unfold EncodeFields.Statement; revert a c d com; decide

theorem EncodeFields.mem (a c d : Bool) (com : BitVec 3) : EncodeFields.Statement (.mem a c d com) := by
  unfold EncodeFields.Statement; revert a c d com; decide

theorem EncodeFields.pmem (a c d : Bool) (com : BitVec 3) : EncodeFields.Statement (.pmem a c d com) := by
  unfold EncodeFields.Statement; revert a c d com; decide

theorem EncodeFields.fb (a c d : Bool) (com : BitVec 3) : EncodeFields.Statement (.fb a c d com) := by
  unfold EncodeFields.Statement; revert a c d com; decide

theorem EncodeFields.fbmix (a c d : Bool) (com : BitVec 3) : EncodeFields.Statement (.fbmix a c d com) := by
  unfold EncodeFields.Statement; revert a c d com; decide

end Sys2Proof.Laws
end

