-- ==== Sys2Proof/Tests/Slice0.lean ====
section
/-! SUPPORT. Tests: values the spec works out (30_encoding.md, 41_selector_instructions.md, 95_test_vectors.md), and for each
statement with hypotheses a concrete input that meets them. -/

-- One theorem after another: the many small kernel evaluations otherwise each hold a thread at once.
set_option Elab.async false

namespace Sys2Proof.Tests

open Sys2Proof Sys2Proof.Machine Sys2Proof.Claims

/-! ### Syntax and decoding -/

/-- 30_encoding.md R57: `com = 6` and `com = 7` are no legal descriptor. -/
theorem test_wellFormed_refuses_com6 : (Instr.self false false false 6).wf = false := by decide

theorem test_wellFormed_refuses_com7 : (Instr.none false false false 7).wf = false := by decide

theorem test_wellFormed_accepts_com5 : (Instr.fbmix true true true 5).wf = true := by decide

/-- 95_test_vectors.md V-ENC, `0x028`, bit by bit `000 1 0 1 000`. -/
theorem test_decode_none : decode 0b000101000#9 = .ok (.none true false true 0) := by decide

/-- V-ENC, `0x070`, `001 1 1 0 000`. -/
theorem test_decode_self : decode 0b001110000#9 = .ok (.self true true false 0) := by decide

/-- V-ENC, `0x0B9`, `010 1 1 1 001`. -/
theorem test_decode_mem : decode 0b010111001#9 = .ok (.mem true true true 1) := by decide

/-- V-ENC, `0x0CB`, `011 0 0 1 011`. -/
theorem test_decode_pmem : decode 0b011001011#9 = .ok (.pmem false false true 3) := by decide

/-- V-ENC, `0x11A`, `100 0 1 1 010`. -/
theorem test_decode_fb : decode 0b100011010#9 = .ok (.fb false true true 2) := by decide

/-- V-ENC, `0x17D`, `101 1 1 1 101`, the largest legal word. -/
theorem test_decode_fbmix : decode 0b101111101#9 = .ok (.fbmix true true true 5) := by decide

/-- V-ENC: the four refused words. -/
theorem test_decode_reserved :
    legalWord 0x046 = false ∧ legalWord 0x007 = false ∧ legalWord 0x180 = false ∧ legalWord 0x1FF = false := by decide

/-- V-ENC: 288 of the 512 words are legal. -/
theorem test_decode_count :
    ((List.range 512).filter fun n => legalWord (BitVec.ofNat 9 n)).length = 288 := by decide +kernel

theorem test_decodeTableWord :
    decodeTableWord 16 0x150 = some (.fbmix false true false 0) ∧ decodeTableWord 16 0x046 = Option.none ∧
      decodeTableWord 16 0x250 = Option.none := by decide

/-- 95_test_vectors.md V-ROM. -/
theorem test_romAddress :
    romAddress 0 (-1) = 5 ∧ romAddress 12 (-1) = 77 ∧ romAddress 7 (-7) = 47 ∧ romAddress 31 11 = 191 := by decide

/-- 45_rom_candidate_image.md: the candidate is a well-formed image. -/
theorem test_candidate_wellFormed : wellFormedImage candidateImage = true := by decide +kernel

theorem test_candidate_built : buildImage candidateWords = some candidateImage := by decide +kernel

/-! ### The six instructions on the example state of 41_selector_instructions.md -/

/-- The example state at index 1, with a prior word of `com = 1` at index 0. -/
def exampleState : State :=
  { State.powerUp .exactReal .multiply [(0, 0x001)] with
    slot := 1
    mem := .lit (1 / 4)
    feedback0 := .lit (3 / 10)
    feedback1 := .lit (1 / 10)
    feedbackLevel := .lit (1 / 2)
    feedbackLevelPend := .lit (1 / 2)
    freqIn := (Vector.replicate 6 none).set 1 (some (.lit (1 / 2)))
    ampIn := (Vector.replicate 6 none).set 1 (some (.lit 1)) }

/-- The part of a next state that V-SEL tabulates: `mod`, `mem`, `feedback`. -/
def signals : StepResult → Option (Value × Value × Value × Value)
  | .next t => some (t.mod, t.mem, t.feedback0, t.feedback1)
  | .fault _ => none
  | .refused _ => none

/-- V-SEL-1. -/
theorem test_none_hold : signals (exec (.none false true false 0) exampleState) =
    some (.lit 0, .lit (1 / 4), .lit (3 / 10), .lit (1 / 10)) := by decide +kernel

/-- V-SEL-2. -/
theorem test_self_hold : signals (exec (.self false true false 0) exampleState) =
    some (.lit (1 / 2), .lit (1 / 4), .lit (3 / 10), .lit (1 / 10)) := by decide +kernel

/-- V-SEL-3. -/
theorem test_mem_acc : signals (exec (.mem false true true 0) exampleState) =
    some (.lit (3 / 4), .lit (3 / 4), .lit (3 / 10), .lit (1 / 10)) := by decide +kernel

/-- V-SEL-4. -/
theorem test_mem_clr : signals (exec (.mem false false false 0) exampleState) =
    some (.lit 0, .lit 0, .lit (3 / 10), .lit (1 / 10)) := by decide +kernel

/-- V-SEL-5. -/
theorem test_pmem_load : signals (exec (.pmem false false true 0) exampleState) =
    some (.lit (1 / 4), .lit (1 / 2), .lit (3 / 10), .lit (1 / 10)) := by decide +kernel

/-- V-SEL-6. -/
theorem test_pmem_clr : signals (exec (.pmem false false false 0) exampleState) =
    some (.lit (1 / 4), .lit 0, .lit (3 / 10), .lit (1 / 10)) := by decide +kernel

/-- V-SEL-7. -/
theorem test_fb_hold : signals (exec (.fb false true false 0) exampleState) =
    some (.lit (3 / 10), .lit (1 / 4), .lit (3 / 10), .lit (1 / 10)) := by decide +kernel

/-- V-SEL-8. -/
theorem test_fb_capture : signals (exec (.fb true true false 0) exampleState) =
    some (.lit (1 / 2), .lit (1 / 4), .lit (1 / 2), .lit (3 / 10)) := by decide +kernel

/-- V-SEL-10. -/
theorem test_fbmix_hold : signals (exec (.fbmix false true false 0) exampleState) =
    some (.lit (1 / 30), .lit (1 / 4), .lit (3 / 10), .lit (1 / 10)) := by decide +kernel

/-- V-SEL-11. -/
theorem test_fbmix_capture : signals (exec (.fbmix true true false 0) exampleState) =
    some (.lit (1 / 15), .lit (1 / 4), .lit (1 / 2), .lit (3 / 10)) := by decide +kernel

/-! ### Numerics -/

/-- 95_test_vectors.md V-PH and S2, exact: the wrap, the strict threshold, the missing lower wrap. -/
theorem test_phase_exact :
    nextPhase .exactReal (.lit (9 / 10)) (.lit (1 / 5)) = .lit (-9 / 10) ∧
      nextPhase .exactReal (.lit (1 / 2)) (.lit (1 / 2)) = .lit 1 ∧
      nextPhase .exactReal (.lit (9 / 10)) (.lit (5 / 2)) = .lit (7 / 5) ∧
      nextPhase .exactReal (.lit 0) (.lit (-3 / 2)) = .lit (-3 / 2) := by decide +kernel

/-- V-PH, binary64: `0.9 + 0.2` wraps to the double `-0.8999999999999999`. -/
theorem test_phase_binary64 :
    nextPhase .binary64 (numOfRat .binary64 (9 / 10)) (numOfRat .binary64 (1 / 5)) =
      numOfRat .binary64 (-8999999999999999 / 10000000000000000) := by decide +kernel

/-- 95_test_vectors.md V-MIX, binary64: `0.1 + 0.2` is `0.30000000000000004`. -/
theorem test_sum_binary64 :
    numAdd .binary64 (numOfRat .binary64 (1 / 10)) (numOfRat .binary64 (1 / 5)) =
      numOfRat .binary64 (30000000000000004 / 100000000000000000) := by decide +kernel

/-- V-MIX, binary64: `CLR` of a negative `mem` and a negative zero is `-0` with products and `+0` with a selection. -/
theorem test_clear_sign_binary64 :
    newMemoryOf .binary64 .multiply false false (.lit (-1 / 2)) .negZero = .negZero ∧
      newMemoryOf .binary64 .select false false (.lit (-1 / 2)) .negZero = .lit 0 := by decide +kernel

/-- V-MIX: `LOAD` of `0.5` over a not-a-number `mem`. -/
theorem test_load_nan_binary64 :
    newMemoryOf .binary64 .multiply false true .nan (.lit (1 / 2)) = .nan ∧
      newMemoryOf .binary64 .select false true .nan (.lit (1 / 2)) = .lit (1 / 2) := by decide +kernel

/-- 95_test_vectors.md V-SMP: amplitude and modulation used as they are. -/
theorem test_sample_exact :
    sampleOf .exactReal (.lit (1 / 2)) (.lit 0) (.lit 1) 3 = .lit (1 / 4) ∧
      sampleOf .exactReal (.lit (-1 / 2)) (.lit 0) (.lit 1) 0 = .lit (-1) ∧
      sampleOf .exactReal (.lit (1 / 2)) (.lit 0) (.lit (-1)) 1 = .lit (-1 / 2) := by decide +kernel

/-- 95_test_vectors.md S7, binary64: `1/6` is the double `0.16666666666666666`. -/
theorem test_attenuation_binary64 :
    attenuation .binary64 5 = numOfRat .binary64 (16666666666666666 / 100000000000000000) := by decide +kernel

/-! ### Steps -/

/-- The fault record and the index of a next state. -/
def control : StepResult → Option (FaultRecord × BitVec 3 × Bool)
  | .next t => some (t.fault, t.slot, t.outValid)
  | .fault _ => none
  | .refused _ => none

/-- A state with one move requested. -/
def asked (s : State) (op : HostOp) : State := { s with ops := [op] }

/-- 95_test_vectors.md V-FLT: `ADVANCE 1` at slot 0, `ADVANCE 6`, and the ids outside `[0,32)`. -/
theorem test_order_and_range :
    control (step (asked State.reset (.advance 1))) = some (.slotOrder 1 0, 0, false) ∧
      control (step (asked exampleState (.advance 6))) = some (.slotOrder 6 1, 1, false) ∧
      control (step (asked State.reset (.wralg 32))) = some (.algRange 32, 0, false) ∧
      control (step (asked State.reset (.wralg (-1)))) = some (.algRange (-1), 0, false) := by decide +kernel

/-- V-FLT: the check of slot 0 uses the pending row. -/
theorem test_reserved_prior_of_pending_row :
    control (step (asked
      { State.powerUp .exactReal .multiply [(24, 0x000), (29, 0x007)] with
        algorithmId := 1, algorithmIdPend := 4
        freqIn := Vector.replicate 6 (some (.lit 0)), ampIn := Vector.replicate 6 (some (.lit 0)) } (.advance 0))) =
      some (.romReserved 4 5 0x007, 0, false) := by decide +kernel

/-- 40_advance_datapath.md R79: the last slot sets `out_valid` and goes back to index 0. -/
theorem test_last_slot :
    control (step (asked
      { State.powerUp .exactReal .multiply [(4, 0x000), (5, 0x008)] with
        slot := 5
        freqIn := Vector.replicate 6 (some (.lit 0)), ampIn := Vector.replicate 6 (some (.lit 0)) } (.advance 5))) =
      some (.none, 0, true) := by decide +kernel

/-- Every instruction's word, fitted at reset, runs. -/
theorem test_fitted_words :
    ([0x000, 0x040, 0x080, 0x0C0, 0x100, 0x140].all fun w =>
      control (step (State.reset.withFetchWord 16 w)) == some (.none, 1, false)) = true := by decide +kernel

/-! ### Witnesses: the hypotheses of the statements can be met -/

/-- The example state, with its slot enabled. -/
theorem witness_enabled : Enabled exampleState 1 (.lit (1 / 2)) (.lit 1) (.none false false false 1) :=
  ⟨rfl, rfl, rfl, rfl, fun _ => rfl, fun _ => rfl, 0x001, rfl, rfl⟩

/-- For EveryInstructionPerformsCommonStep, PhaseAccumulates, FeedbackCapture, MemoryRecurrence, CommitAndBookkeeping,
LatchAtSlotZeroOnly (index other than 0). -/
theorem witness_commonStep :
    (Instr.fbmix true true true 5).wf = true ∧ exampleState.mixMode = .multiply ∧
      Enabled exampleState 1 (.lit (1 / 2)) (.lit 1) (.none false false false 1) :=
  ⟨rfl, rfl, witness_enabled⟩

/-- A state at index 0 with the candidate ROM and all inputs zero. -/
def frameStart : State :=
  { State.powerUp .exactReal .multiply candidateImage with
    freqIn := Vector.replicate 6 (some (.lit 0)), ampIn := Vector.replicate 6 (some (.lit 0)) }

/-- The same at index 0, for the latch. -/
theorem witness_enabled_slot0 : Enabled frameStart 0 (.lit 0) (.lit 0) (.fbmix false true true 0) :=
  ⟨rfl, rfl, rfl, rfl, fun _ => rfl, fun _ => rfl, 0x158, rfl, rfl⟩

/-- The same at index 5, where `out_valid` is set. -/
theorem witness_enabled_slot5 : Enabled { frameStart with slot := 5 } 5 (.lit 0) (.lit 0) (.self false true false 1) :=
  ⟨rfl, rfl, rfl, rfl, fun _ => rfl, fun _ => rfl, 0x051, rfl, rfl⟩

/-- For NoneWritesZeroToMod and the other five result statements, with `com` at both ends of its range, and OwnComUnused. -/
theorem witness_comRange : (0 : BitVec 3).toNat ≤ 5 ∧ (5 : BitVec 3).toNat ≤ 5 ∧
    Enabled exampleState 1 (.lit (1 / 2)) (.lit 1) (.none false false false 1) :=
  ⟨by decide, by decide, witness_enabled⟩

theorem witness_valuesInCarrier : ValuesInCarrier exampleState := by
  refine ⟨by decide +kernel, rfl, rfl, rfl, rfl, rfl, rfl, ?_, ?_⟩ <;>
    · intro i v h
      have hall : ∀ j : OpIndex, ∀ x ∈ exampleState.freqIn[j].toList ++ exampleState.ampIn[j].toList,
          presentable exampleState.num x = true := by decide +kernel
      exact hall i v (by simp [h])

/-- For ZeroLevelSilencesFbmix and ExactFbmixDenotesBlend. -/
theorem witness_zeroLevel :
    (0 : BitVec 3).toNat ≤ 5 ∧ exampleState.num = .exactReal ∧ ValuesInCarrier { exampleState with feedbackLevel := .lit 0 } ∧
      Enabled { exampleState with feedbackLevel := .lit 0 } 1 (.lit (1 / 2)) (.lit 1) (.none false false false 1) ∧
      levelOf { exampleState with feedbackLevel := .lit 0 } 1 = .lit 0 := by
  have h := witness_valuesInCarrier
  exact ⟨by decide, rfl, ⟨h.1, h.2, h.3, h.4, h.5, rfl, h.7, h.8, h.9⟩,
    ⟨rfl, rfl, rfl, rfl, fun _ => rfl, fun _ => rfl, 0x001, rfl, rfl⟩, rfl⟩

/-- For OtherPhasesUnread and MidFrameControlInvisible. -/
theorem witness_execNext :
    exampleState.slot.toNat ≠ (0 : OpIndex).val ∧ exampleState.slot ≠ 0 ∧
      ∃ t, exec (.self false true false 0) exampleState = .next t :=
  ⟨by decide, by decide, _,
    (Laws.exec_eq_advanceWith _ _).trans (Laws.advanceWith_enabled (instr := .self false true false 0) _ witness_enabled rfl)⟩

/-- A state of the reference instance at index 1 with the phase `-1/2`, whose frequency is the circle constant. -/
def realState : State :=
  { exampleState with
    phase := exampleState.phase.set 1 (.lit (-1 / 2))
    freqIn := exampleState.freqIn.set 1 (some (.fin .pi)) }

theorem witness_enabled_real : Enabled realState 1 (.fin .pi) (.fin (.rat 1)) (.none false false false 1) :=
  ⟨rfl, rfl, rfl, rfl, fun _ => rfl, fun _ => rfl, 0x001, rfl, rfl⟩

/-- For ExactSampleDenotesFormula: a rational increment, and one that is no rational number, whose sum exceeds one. -/
theorem witness_exactSample :
    (exampleState.num = .exactReal ∧ exampleState.phase[(1 : OpIndex)] = .fin (.rat 0) ∧ exampleState.mod = .fin (.rat 0) ∧
      Enabled exampleState 1 (.fin (.rat (1 / 2))) (.fin (.rat 1)) (.none false false false 1)) ∧
    (realState.num = .exactReal ∧ realState.phase[(1 : OpIndex)] = .fin (.rat (-1 / 2)) ∧ realState.mod = .fin (.rat 0) ∧
      Enabled realState 1 (.fin .pi) (.fin (.rat 1)) (.none false false false 1)) :=
  ⟨⟨rfl, rfl, rfl, witness_enabled⟩, rfl, rfl, rfl, witness_enabled_real⟩

/-- For ExactSampleLaws: the sample and the two samples it is compared with exist. -/
theorem witness_exactSampleLaws :
    sampleOf .exactReal (.fin (.rat (1 / 2))) (.fin (.rat 0)) (.fin (.rat 1)) 0 = .fin (.rat 1) ∧
      sampleOf .exactReal (.fin (exactSub (.rat (1 / 2)) (.rat 2))) (.fin (.rat 0)) (.fin (.rat 1)) 0 = .fin (.rat 1) ∧
      denote (.rat (-1 / 2)) = -denote (.rat (1 / 2)) ∧ denote (.rat 0) = -denote (.rat 0) ∧
      sampleOf .exactReal (.fin (.rat (-1 / 2))) (.fin (.rat 0)) (.fin (.rat 1)) 0 = .fin (.rat (-1)) := by
  refine ⟨by decide +kernel, by decide +kernel, ?_, ?_, by decide +kernel⟩
  · simp [denote]
    norm_num
  · simp [denote]

/-- For PhaseStaysInRange: a sum that stays, one that wraps (`-1/2` and the circle constant), and the numbers of the end of the
admitted range (V-PH). -/
theorem witness_phaseRange :
    (Enabled exampleState 1 (.fin (.rat (1 / 2))) (.lit 1) (.none false false false 1) ∧ exampleState.num = .exactReal ∧
      exampleState.phase[(1 : OpIndex)] = .fin (.rat 0) ∧ -1 < denote (.rat 0) ∧ denote (.rat 0) ≤ 1 ∧
      -1 < denote (.rat 0) + denote (.rat (1 / 2)) ∧ denote (.rat 0) + denote (.rat (1 / 2)) ≤ 3) ∧
    (Enabled realState 1 (.fin .pi) (.lit 1) (.none false false false 1) ∧ realState.num = .exactReal ∧
      realState.phase[(1 : OpIndex)] = .fin (.rat (-1 / 2)) ∧ -1 < denote (.rat (-1 / 2)) ∧ denote (.rat (-1 / 2)) ≤ 1 ∧
      -1 < denote (.rat (-1 / 2)) + denote .pi ∧ denote (.rat (-1 / 2)) + denote .pi ≤ 3 ∧
      1 < denote (.rat (-1 / 2)) + denote .pi) ∧
    (denote (.rat 1) ≤ 1 ∧ denote (.rat 1) + denote (.rat 2) ≤ 3) := by
  have lo := Real.pi_gt_three
  have hi := Real.pi_lt_d2
  refine ⟨⟨witness_enabled, rfl, rfl, ?_, ?_, ?_, ?_⟩, ⟨witness_enabled_real, rfl, rfl, ?_, ?_, ?_, ?_, ?_⟩, ?_, ?_⟩ <;>
    simp only [denote] <;> push_cast <;> linarith

/-- For ExactOperationsAreReal, in the reference instance: intervals show `PI > 3`, and none shows `3 > PI`. -/
theorem test_order_real :
    exceedsAt .pi (.rat 3) 16 = true ∧ exceedsAt (.rat 3) .pi 16 = false ∧
      numGt .exactReal (.fin .pi) (.lit 3) = true := by
  have h : exceedsAt .pi (.rat 3) (0 + 16) = true := by decide +kernel
  refine ⟨h, by decide +kernel, ?_⟩
  show (exceedsFrom .pi (.rat 3) 0).isSome = true
  rw [Laws.exceedsFrom_of_exceedsAt 16 h]
  rfl

/-- 10_state.md R26: the phase `-1/2` advanced by the circle constant is wrapped. -/
theorem test_wrap_real : nextPhase .exactReal (.lit (-1 / 2)) (.fin .pi) = .fin (.add (.add (.rat (-1 / 2)) .pi) (.rat (-2))) := by
  have h : exceedsAt (.add (.rat (-1 / 2)) .pi) (.rat 1) (0 + 4) = true := by decide +kernel
  have gt : numGt .exactReal (.fin (.add (.rat (-1 / 2)) .pi)) (.lit 1) = true := by
    show (exceedsFrom (.add (.rat (-1 / 2)) .pi) (.rat 1) 0).isSome = true
    rw [Laws.exceedsFrom_of_exceedsAt 4 h]
    rfl
  have sum : numAdd .exactReal (.lit (-1 / 2)) (.fin .pi) = .fin (.add (.rat (-1 / 2)) .pi) := by decide +kernel
  rw [nextPhase, sum]
  simp only [gt, if_true]
  decide +kernel

/-- For NotANumberPropagates: a not-a-number `mem` and frequency, an infinite frequency, an infinite phase (as `SELF`). -/
theorem witness_notANumber :
    (Enabled { exampleState with num := .binary64, mem := .nan, freqIn := exampleState.freqIn.set 1 (some .nan) } 1 .nan (.lit 1)
      (.none false false false 1) ∧ (Instr.none false true false 0).wf = true ∧ NumKind.binary64 ≠ .exactReal ∧
      exampleState.mixMode = .multiply) ∧
    (Enabled { exampleState with num := .binary64, freqIn := exampleState.freqIn.set 1 (some (.inf false)) } 1 (.inf false)
      (.lit 1) (.none false false false 1) ∧ NotFinite (.inf false)) ∧
    (Enabled { exampleState with num := .binary32, phase := exampleState.phase.set 1 (.inf true) } 1 (.lit (1 / 2))
      (.lit 1) (.none false false false 1) ∧ NotFinite (exampleState.phase.set 1 (.inf true))[(1 : OpIndex)] ∧
      (Instr.self true true false 0).wf = true ∧ (Instr.self true true false 0).sel = 1) :=
  ⟨⟨⟨rfl, rfl, rfl, rfl, by simp, by simp, 0x001, rfl, rfl⟩, rfl, by decide, rfl⟩,
    ⟨⟨rfl, rfl, rfl, rfl, by simp, by simp, 0x001, rfl, rfl⟩, .inr ⟨false, rfl⟩⟩,
    ⟨rfl, rfl, rfl, rfl, by simp, by simp, 0x001, rfl, rfl⟩, .inr ⟨true, rfl⟩, rfl, rfl⟩

/-- For NotANumberPropagates: a not-a-number amplitude, an infinite amplitude, an infinite `mod`, all else finite. -/
theorem witness_notANumber_amplitude :
    Enabled { exampleState with num := .binary64, ampIn := exampleState.ampIn.set 1 (some .nan) } 1 (.lit (1 / 2)) .nan
      (.none false false false 1) ∧
    (Enabled { exampleState with num := .binary64, ampIn := exampleState.ampIn.set 1 (some (.inf false)) } 1 (.lit (1 / 2))
      (.inf false) (.none false false false 1) ∧ NotFinite (.inf false)) ∧
    (Enabled { exampleState with num := .binary32, mod := .inf true } 1 (.lit (1 / 2)) (.lit 1) (.none false false false 1) ∧
      NotFinite (.inf true)) :=
  ⟨⟨rfl, rfl, rfl, rfl, by simp, by simp, 0x001, rfl, rfl⟩,
    ⟨⟨rfl, rfl, rfl, rfl, by simp, by simp, 0x001, rfl, rfl⟩, .inr ⟨false, rfl⟩⟩,
    ⟨rfl, rfl, rfl, rfl, by simp, by simp, 0x001, rfl, rfl⟩, .inr ⟨true, rfl⟩⟩

/-- For NonFiniteOperations: the finite operands of each clause. -/
theorem witness_nonFiniteOperations :
    NumKind.binary32 ≠ .exactReal ∧ floatRat? (.lit 0) = some 0 ∧ floatRat? .negZero = some 0 ∧ floatRat? (.lit (-1)) = some (-1) := by
  decide +kernel

/-- The three kinds of number below the threshold that RoundingIsNearest tells apart: one that is rounded; one between two equally
near numbers of the format, `2^24` and `2^24 + 2`; a negative one that rounds to the negative zero. -/
theorem test_rounding :
    roundTo { precision := 24, emin := -126, emax := 127 } false (1 / 3) = .lit (11184811 / 33554432) ∧
      roundTo { precision := 24, emin := -126, emax := 127 } false 16777217 = .lit 16777216 ∧
      |(16777216 : ℚ) - 16777217| = |(16777218 : ℚ) - 16777217| ∧
      roundTo { precision := 24, emin := -126, emax := 127 } false (-1 / 2 ^ 150) = .negZero := by decide +kernel

/-- For RoundingIsNearest: numbers of the format, the largest and the smallest among them, and a number below the threshold. -/
theorem witness_rounding :
    NumKind.binary32.format? = some { precision := 24, emin := -126, emax := 127 } ∧
      IsFormatNumber { precision := 24, emin := -126, emax := 127 } 16777218 ∧
      IsFormatNumber { precision := 24, emin := -126, emax := 127 } ((2 ^ 24 - 1) * 2 ^ (104 : ℤ)) ∧
      IsFormatNumber { precision := 24, emin := -126, emax := 127 } (-(2 ^ (-149 : ℤ))) ∧
      |(16777217 : ℚ)| < 2 ^ ((127 : ℤ) + 1) - 2 ^ ((127 : ℤ) - (24 : ℕ)) := by
  refine ⟨rfl, ⟨8388609, 1, ?_, ?_, ?_, ?_⟩, ⟨2 ^ 24 - 1, 104, ?_, ?_, ?_, ?_⟩, ⟨-1, -149, ?_, ?_, ?_, ?_⟩, ?_⟩ <;> norm_num

/-- For OverflowToInfinity: the least number that rounds to infinity (a tie), a number below it, and a negative one. -/
theorem witness_overflow :
    roundTo { precision := 24, emin := -126, emax := 127 } false (2 ^ 128 - 2 ^ 103) = .inf false ∧
      roundTo { precision := 24, emin := -126, emax := 127 } false (2 ^ 128 - 2 ^ 103 - 1) = .lit (2 ^ 128 - 2 ^ 104) ∧
      roundTo { precision := 24, emin := -126, emax := 127 } false (-2 ^ 128) = .inf true := by decide +kernel

/-- For FloatOperationsRound and FloatSineInUnitRange: finite data, one of them the negative zero. -/
theorem witness_floatOperations :
    NumKind.binary64.format? = some { precision := 53, emin := -1022, emax := 1023 } ∧ NumKind.binary64 ≠ .exactReal ∧
      floatRat? (.lit (1 / 2)) = some (1 / 2) ∧ floatRat? .negZero = some 0 := by decide +kernel

/-- 40_advance_datapath.md R83: `inf - inf` and `0 * inf` are not numbers. -/
theorem test_infinite_operations :
    numSub .binary32 (.inf false) (.inf false) = .nan ∧ numMul .binary32 (.lit 0) (.inf false) = .nan ∧
      numSin .binary32 (.inf true) = .nan := ⟨rfl, rfl, rfl⟩

/-- For RomReadTotalModuloSix, WellFormedImageNeverReserved and StepKeepsConfiguration. -/
theorem witness_wellFormedStep :
    wellFormedImage (asked frameStart (.advance 0)).rom = true ∧ (∃ t, step (asked frameStart (.advance 0)) = .next t) ∧
      ∀ row k w, (asked frameStart (.advance 0)).fault ≠ .romReserved row k w :=
  ⟨test_candidate_wellFormed,
    ⟨_, (show step (asked frameStart (.advance 0)) = advanceWith (.self true true false 0) routeSelf frameStart from rfl).trans
      (Laws.advanceWith_enabled (instr := .self true true false 0) _ witness_enabled_slot0 rfl)⟩,
    fun _ _ _ => by simp [asked, frameStart, State.powerUp]⟩

/-- For SlotOrderRaised: each way an operand can be wrong, at slot 0. -/
theorem witness_slotOrder :
    (asked State.reset (.advance (-1))).fault = .none ∧ (-1 : Int) < 0 ∧ (5 : Int) < 6 ∧
      (1 : Int) ≠ ((asked State.reset (.advance 1)).slot.toNat : Int) ∧
      (5 : Int) ≠ ((asked State.reset (.advance 5)).slot.toNat : Int) := by decide

/-- For ReservedWordRaised, both clauses, at index 0, where the prior word is the last of the row. -/
theorem witness_reservedWord :
    (∃ s : State, s.ops = [.advance (0 : OpIndex).val] ∧ s.fault = .none ∧ s.slot.toNat = (0 : OpIndex).val ∧
      s.freqIn[(0 : OpIndex)] = some (.lit 0) ∧ s.ampIn[(0 : OpIndex)] = some (.lit 0) ∧
      wordAt s (rowOf s 0) 0 = some 0x180 ∧ legalWord 0x180 = false) ∧
    (∃ s : State, s.ops = [.advance (0 : OpIndex).val] ∧ s.fault = .none ∧ s.slot.toNat = (0 : OpIndex).val ∧
      s.freqIn[(0 : OpIndex)] = some (.lit 0) ∧ s.ampIn[(0 : OpIndex)] = some (.lit 0) ∧
      wordAt s (rowOf s 0) 0 = some 0x000 ∧ legalWord 0x000 = true ∧ wordAt s (rowOf s 0) (0 + 5) = some 0x046 ∧
      legalWord 0x046 = false) :=
  ⟨⟨{ frameStart with rom := [(0, 0x180)], ops := [.advance 0] }, rfl, rfl, rfl, rfl, rfl, rfl, rfl⟩,
    ⟨{ frameStart with rom := [(0, 0x000), (5, 0x046)], ops := [.advance 0] }, rfl, rfl, rfl, rfl, rfl, rfl, rfl, rfl, rfl⟩⟩

/-- For NonFiniteInputRaised, both clauses (V-FLT: `FREQ_IN(0) = +inf`, `AMP_IN = NaN`). -/
theorem witness_nonFinite :
    (∃ s : State, s.ops = [.advance (0 : OpIndex).val] ∧ s.fault = .none ∧ s.slot.toNat = (0 : OpIndex).val ∧
      s.num = .exactReal ∧ s.freqIn[(0 : OpIndex)] = some (.inf false) ∧ s.ampIn[(0 : OpIndex)] = some (.lit 0)) ∧
    (∃ s : State, s.ops = [.advance (0 : OpIndex).val] ∧ s.fault = .none ∧ s.slot.toNat = (0 : OpIndex).val ∧
      s.num = .exactReal ∧ s.freqIn[(0 : OpIndex)] = some (.lit 0) ∧ s.ampIn[(0 : OpIndex)] = some .nan ∧
      (Value.lit 0).isReal = true) :=
  ⟨⟨{ frameStart with freqIn := frameStart.freqIn.set 0 (some (.inf false)), ops := [.advance 0] }, rfl, rfl, rfl, rfl, rfl, rfl⟩,
    ⟨{ frameStart with ampIn := frameStart.ampIn.set 0 (some .nan), ops := [.advance 0] }, rfl, rfl, rfl, rfl, rfl, rfl, rfl⟩⟩

/-- A state with a fault recorded (95_test_vectors.md P4). -/
def faulted : State := { State.reset with fault := .slotOrder 3 2 }

/-- For RecordedFaultIsSticky and ResetLeavesFaultedState: a faulted state, for each move; `WRALG` at both ends of its range and
beside them, `WRFBL` of a real and of a non-finite level. -/
theorem witness_faulted :
    faulted.fault ≠ .none ∧ (asked faulted (.advance 2)).ops = [.advance 2] ∧ (asked faulted .rdout).ops = [.rdout] ∧
      (asked faulted (.wralg 0)).ops = [.wralg 0] ∧ (asked faulted (.wralg 31)).ops = [.wralg 31] ∧
      (asked faulted (.wralg 32)).ops = [.wralg 32] ∧ (-1 : Int) < 0 ∧ (32 : Int) ≤ 32 ∧
      inCarrier faulted.num (.lit 1) = true ∧ (asked faulted (.wrfbl (.lit 1))).ops = [.wrfbl (.lit 1)] ∧
      faulted.num = .exactReal ∧ (asked faulted (.wrfbl .nan)).ops = [.wrfbl .nan] ∧
      HostOp.rdout ≠ .reset ∧ control (step (asked faulted .rdout)) = some (.slotOrder 3 2, 0, false) ∧
      control (step (asked faulted (.drive 0 (some .nan) none))) = some (.slotOrder 3 2, 0, false) ∧
      (asked faulted .reset).ops = [.reset] := by decide +kernel

/-- For ResetValues: each of the two forms of the reset state. -/
theorem witness_resetValues :
    (State.powerUp .binary64 .select [(0, 0)] = State.powerUp .binary64 .select [(0, 0)]) ∧
      State.reset = State.powerUp .exactReal .multiply [] := ⟨rfl, rfl⟩

/-- For RdoutGivesMem, both clauses. -/
theorem witness_rdout :
    (asked State.reset .rdout).fault = .none ∧ (asked State.reset .rdout).outValid = false ∧
      (asked { exampleState with outValid := true } .rdout).outValid = true ∧
      (asked { exampleState with outValid := true } .rdout).fault = .none := by decide

/-- For WralgWritesPendingId: the ends of both ranges. -/
theorem witness_wralg :
    (0 : Int) ≤ 0 ∧ (0 : Int) ≤ 31 ∧ (31 : Int) < 32 ∧ (-1 : Int) < 0 ∧ (32 : Int) ≤ 32 ∧
      (asked State.reset (.wralg 32)).ops = [.wralg 32] ∧ (asked State.reset (.wralg 32)).fault = .none := by decide

/-- For WrfblWritesPendingLevel, with a level outside the declared range (not clamped), and NonFiniteLevelRaised. -/
theorem witness_wrfbl :
    inCarrier State.reset.num (.lit 7) = true ∧ (asked State.reset (.wrfbl (.lit 7))).ops = [.wrfbl (.lit 7)] ∧
      State.reset.num = .exactReal ∧ (asked State.reset (.wrfbl (.inf true))).fault = .none := by decide +kernel

/-- For DriveSetsOnePortPair: a finite and, in the exact-real instance, a non-finite value can stand at a port. -/
theorem witness_drive :
    presentable State.reset.num (.lit (1 / 2)) = true ∧ presentable State.reset.num .nan = true ∧
      (asked State.reset (.drive 5 (some .nan) (some (.lit (1 / 2))))).ops = [.drive 5 (some .nan) (some (.lit (1 / 2)))] := by
  decide +kernel

/-- For OnlyAdvanceWritesEngineState. -/
theorem witness_otherMove :
    (∃ t, step (asked State.reset (.wralg 3)) = .next t) ∧ HostOp.wralg 3 ≠ .reset ∧ ∀ n, HostOp.wralg 3 ≠ .advance n :=
  ⟨⟨_, rfl⟩, by simp, by simp⟩

/-- For UndrivenPortIsStuck: each port undriven in turn. -/
theorem witness_undriven :
    (∃ s : State, s.ops = [.advance (0 : OpIndex).val] ∧ s.fault = .none ∧ s.slot.toNat = (0 : OpIndex).val ∧
      s.freqIn[(0 : OpIndex)] = none ∧ wordAt s (rowOf s 0) 0 = some 0x070) ∧
    (∃ s : State, s.ops = [.advance (0 : OpIndex).val] ∧ s.fault = .none ∧ s.slot.toNat = (0 : OpIndex).val ∧
      s.freqIn[(0 : OpIndex)] ≠ none ∧ s.ampIn[(0 : OpIndex)] = none ∧ wordAt s (rowOf s 0) 0 = some 0x070) :=
  ⟨⟨{ frameStart with freqIn := frameStart.freqIn.set 0 none, ops := [.advance 0] }, rfl, rfl, rfl, rfl, rfl⟩,
    ⟨{ frameStart with ampIn := frameStart.ampIn.set 0 none, ops := [.advance 0] }, rfl, rfl, rfl, by simp [frameStart], rfl, rfl⟩⟩

/-- For StepRunsDecodedInstruction. -/
theorem witness_stepRuns :
    (asked frameStart (.advance (0 : OpIndex).val)).fault = .none ∧ frameStart.slot.toNat = (0 : OpIndex).val ∧
      wordAt frameStart (rowOf frameStart 0) 0 = some 0x070 ∧ decode 0x070 = .ok (.self true true false 0) :=
  ⟨rfl, rfl, rfl, rfl⟩

/-- For FittedWordRunsNext, at reset and at the last index. -/
theorem witness_fitted :
    decodeTableWord 16 0x158 = some (.fbmix false true true 0) ∧ State.reset.fault = .none ∧ State.reset.slot.toNat < 6 ∧
      Memory.wf State.reset.rom = true ∧ ({ State.reset with slot := 5 } : State).slot.toNat < 6 := by decide

/-- For StepKeepsControlLegal and StepKeepsValuesInCarrier. -/
theorem witness_invariants :
    ControlLegal exampleState ∧ ValuesInCarrier exampleState ∧ ∃ t, step { exampleState with ops := [.wralg 3] } = .next t :=
  ⟨⟨by decide, by decide, by decide⟩, witness_valuesInCarrier, _, rfl⟩

/-- For SilenceIsKept: driving a zero amplitude, in a state where nothing sounds. -/
theorem witness_silence :
    ∃ s t : State, s.num = .exactReal ∧ ValuesInCarrier s ∧ Silent s ∧
      (∀ i f a rest, s.ops = .drive i f a :: rest → a = none ∨ a = some (.lit 0)) ∧ step s = .next t := by
  refine ⟨asked State.reset (.drive 2 (some (.lit (1 / 2))) (some (.lit 0))), _, rfl, ?_, ?_, ?_, rfl⟩
  · refine ⟨by decide +kernel, rfl, rfl, rfl, rfl, rfl, rfl, ?_, ?_⟩ <;>
      · intro i v h
        simp [asked, State.reset, State.powerUp] at h
  · exact ⟨rfl, rfl, rfl, rfl, by simp [asked, State.reset, State.powerUp]⟩
  · intro i f a rest h
    simp only [asked, List.cons.injEq, HostOp.drive.injEq] at h
    exact .inr h.1.2.2.symm

/-- For FrameCompletes and FeedbackShiftsOncePerFrame: row 0 of the candidate captures at index 0 only. -/
theorem witness_frames :
    frameStart.fault = .none ∧ frameStart.slot = 0 ∧ wellFormedImage frameStart.rom = true ∧
      FrameInputs frameStart.num (Vector.replicate 6 (.lit 0)) (Vector.replicate 6 (.lit 1)) ∧
      (∃ s : State, s.rom = frameStart.rom ∧ s.slot = 0 ∧ s.ops =
        frameOps (Vector.replicate 6 (.lit 0)) (Vector.replicate 6 (.lit 1)) ++
          (frameOps (Vector.replicate 6 (.lit 0)) (Vector.replicate 6 (.lit 1)) ++ [])) ∧
      ∀ j : OpIndex, (romDescriptor frameStart.rom frameStart.algorithmIdPend (j.val : Int)).map Instr.a =
        some (decide (j = 0)) := by
  refine ⟨rfl, rfl, test_candidate_wellFormed, ?_, ⟨{ frameStart with
    ops := frameOps (Vector.replicate 6 (.lit 0)) (Vector.replicate 6 (.lit 1)) ++
      (frameOps (Vector.replicate 6 (.lit 0)) (Vector.replicate 6 (.lit 1)) ++ []) }, rfl, rfl, rfl⟩, by decide +kernel⟩
  unfold FrameInputs
  decide +kernel

end Sys2Proof.Tests
end

/-! The statements of 00_scope.md: every step keeps the values of a state in the carrier of its `NUM`, the operations on exact
reals are those of the real numbers, and what the constant `PI` is. -/

namespace Sys2Proof.Proofs

open Sys2Proof Sys2Proof.Machine Sys2Proof.Laws

variable {s t : State} {i : OpIndex} {f amp : Value}

/-! ### The carrier as an invariant -/

/-- Every value the router of a slot can choose from is an element of the carrier. -/
structure WiresInCarrier (w : Wires) : Prop where
  sample : inCarrier w.num w.sample = true
  newMemory : inCarrier w.num w.newMemory = true
  oldMem : inCarrier w.num w.oldMem = true
  tap0 : inCarrier w.num w.tap0 = true
  tap1 : inCarrier w.num w.tap1 = true
  level : inCarrier w.num w.level = true

theorem routeOf_inCarrier {w : Wires} (hw : WiresInCarrier w) (instr : Instr) :
    inCarrier w.num (routeOf instr w) = true :=
  inCarrier_routeOf hw.sample hw.newMemory hw.oldMem hw.tap0 hw.tap1 hw.level

theorem setOps_valuesInCarrier (hs : ValuesInCarrier s) (ops : List HostOp) : ValuesInCarrier (setOps s ops) :=
  { hs with }

theorem raise_valuesInCarrier (hs : ValuesInCarrier s) (r : FaultRecord) : ValuesInCarrier (raise s r) := by
  unfold raise
  split
  · exact { hs with }
  · exact hs

theorem latch_valuesInCarrier (hs : ValuesInCarrier s) (i : OpIndex) : ValuesInCarrier (latch s i) := by
  unfold latch
  split
  · exact { hs with feedbackLevel := hs.feedbackLevelPend }
  · exact hs

theorem resetEngine_valuesInCarrier (s : State) : ValuesInCarrier (resetEngine s) where
  phase j := by simpa using inCarrier_zero s.num
  mod := inCarrier_zero s.num
  feedback0 := inCarrier_zero s.num
  feedback1 := inCarrier_zero s.num
  mem := inCarrier_zero s.num
  feedbackLevel := inCarrier_zero s.num
  feedbackLevelPend := inCarrier_zero s.num
  freqIn j v h := by simp at h
  ampIn j v h := by simp at h

/-- A vector with one element replaced has the property `P` everywhere if it had it before and the new element has it. -/
theorem forall_getElem_set {α : Type} {P : α → Prop} {xs : Vector α 6} (hxs : ∀ j : OpIndex, P xs[j]) {x : α} (hx : P x)
    (i j : OpIndex) : P (xs.set i x)[j] := by
  by_cases hij : i.val = j.val
  · simpa [hij] using hx
  · simpa [Vector.getElem_set, hij] using hxs j

/-- A port is undriven or driven by what can stand there: the clause of `ValuesInCarrier` about one port. -/
def PortPresentable (k : NumKind) (x : Option Value) : Prop := ∀ v, x = some v → presentable k v = true

theorem drive_valuesInCarrier (hs : ValuesInCarrier s) {fr am : Option Value} (hf : PortPresentable s.num fr)
    (ha : PortPresentable s.num am) :
    ValuesInCarrier { s with freqIn := s.freqIn.set i fr, ampIn := s.ampIn.set i am } :=
  { hs with
    freqIn := forall_getElem_set (P := PortPresentable s.num) hs.freqIn hf i
    ampIn := forall_getElem_set (P := PortPresentable s.num) hs.ampIn ha i }

/-- Steps 1 to 5 of a slot compute elements of the carrier (40_advance_datapath.md R70). -/
theorem wiresOf_inCarrier (hs : ValuesInCarrier s) (hf : inCarrier s.num f = true) (ha : inCarrier s.num amp = true)
    (com : BitVec 3) (instr : Instr) : WiresInCarrier (wiresOf s i f amp com instr) := by
  have hsample : inCarrier s.num (sampleOf s.num (nextPhase s.num s.phase[i] f) s.mod amp com) = true :=
    inCarrier_sampleOf (inCarrier_nextPhase (hs.phase i) hf) hs.mod ha
  constructor
  case sample => exact hsample
  case newMemory => exact inCarrier_newMemoryOf hs.mem hsample
  case oldMem => exact hs.mem
  case tap0 =>
    simp only [wiresOf, capturedTaps]
    split
    · exact hsample
    · exact hs.feedback0
  case tap1 =>
    simp only [wiresOf, capturedTaps]
    split
    · exact hs.feedback0
    · exact hs.feedback1
  case level => exact hs.feedbackLevel

theorem commitSlot_valuesInCarrier (hs : ValuesInCarrier s) (hf : inCarrier s.num f = true) {w : Wires}
    (hw : WiresInCarrier w) (hnum : w.num = s.num) {m : Value} (hm : inCarrier s.num m = true) :
    ValuesInCarrier (commitSlot s i f w m) :=
  { hs with
    phase := forall_getElem_set (P := fun v => inCarrier s.num v = true) hs.phase (inCarrier_nextPhase (hs.phase i) hf) i
    mod := hm
    feedback0 := hnum ▸ hw.tap0
    feedback1 := hnum ▸ hw.tap1
    mem := hnum ▸ hw.newMemory }

/-- A slot on inputs in the carrier: latch, wires, router and commit each keep the values in the carrier. -/
theorem performSlot_valuesInCarrier (hs : ValuesInCarrier s) (hf : inCarrier s.num f = true)
    (ha : inCarrier s.num amp = true) (com : BitVec 3) (instr : Instr) :
    ValuesInCarrier (performSlot s i f amp com instr (routeOf instr)) := by
  have hnum : (latch s i).num = s.num := latch_num s i
  have hlatch := latch_valuesInCarrier hs i
  have hw : WiresInCarrier (wiresOf (latch s i) i f amp com instr) :=
    wiresOf_inCarrier hlatch (by rwa [hnum]) (by rwa [hnum]) com instr
  exact commitSlot_valuesInCarrier hlatch (by rwa [hnum]) hw rfl (routeOf_inCarrier hw instr)

/-- The inputs an enabled slot reads are elements of the carrier: what stands at a port and passed the check of
60_exceptions.md R126. -/
theorem enabled_inputs_inCarrier {prior : Instr} (hs : ValuesInCarrier s) (h : Enabled s i f amp prior) :
    inCarrier s.num f = true ∧ inCarrier s.num amp = true :=
  ⟨inCarrier_of_presentable (hs.freqIn i f h.freqDriven) h.freqReal,
    inCarrier_of_presentable (hs.ampIn i amp h.ampDriven) h.ampReal⟩

/-- Every move of an agent keeps the values in the carrier. -/
theorem performOp_valuesInCarrier {op : HostOp} (hs : ValuesInCarrier s) (h : performOp op s = .next t) :
    ValuesInCarrier t := by
  rcases performOp_next h with rfl | ⟨-, r, rfl⟩ | ⟨i, f, amp, prior, instr, hen, -, -, rfl⟩ |
    ⟨i, fr, am, -, hf, ha, rfl⟩ | ⟨a, -, rfl⟩ | ⟨v, -, -, -, rfl⟩ | ⟨v, -, hv, rfl⟩ | ⟨-, -, rfl⟩
  · exact hs
  · exact raise_valuesInCarrier hs r
  · obtain ⟨hf, ha⟩ := enabled_inputs_inCarrier hs hen
    exact performSlot_valuesInCarrier hs hf ha prior.com instr
  · exact drive_valuesInCarrier hs hf ha
  · exact { hs with }
  · exact { hs with }
  · exact { hs with feedbackLevelPend := hv }
  · exact resetEngine_valuesInCarrier s

/-- Settles O56: a step makes one move, and each move keeps the values in the carrier. -/
theorem stepKeepsValuesInCarrier : Obligations.StepKeepsValuesInCarrier := by
  intro s t hs h
  obtain ⟨op, rest, -, hop⟩ := step_next h
  exact performOp_valuesInCarrier (setOps_valuesInCarrier hs rest) hop

/-! ### Exact reals -/

/-- Settles O35: each operation on exact reals is the one on expressions, which denotes the real one, and the comparison
is the order of the reals. -/
theorem exactOperationsAreReal : Obligations.ExactOperationsAreReal := fun x y =>
  ⟨exactAdd x y, exactSub x y, exactMul x y, exactSin x,
    numAdd_exactReal x y, denote_exactAdd x y,
    numSub_exactReal x y, denote_exactSub x y,
    numMul_exactReal x y, denote_exactMul x y,
    numSin_exactReal x, denote_exactSin x,
    numGt_exactReal x y⟩

/-! ### The constant `PI` -/

theorem abs_pi32_sub_pi_lt : |((13176795 / 4194304 : ℚ) : ℝ) - Real.pi| < 1 / 2 ^ 23 := by
  have hlo := Real.pi_gt_d20
  have hhi := Real.pi_lt_d20
  rw [abs_lt]
  push_cast
  constructor <;> linarith

theorem abs_pi64_sub_pi_lt : |((884279719003555 / 281474976710656 : ℚ) : ℝ) - Real.pi| < 1 / 2 ^ 52 := by
  have hlo := Real.pi_gt_d20
  have hhi := Real.pi_lt_d20
  rw [abs_lt]
  push_cast
  constructor <;> linarith

/-- Settles O36, from the twenty decimal digits of the circle constant in Mathlib. -/
theorem piConstants : Obligations.PiConstants :=
  ⟨⟨_, rfl, inCarrier_numPi .binary32, abs_pi32_sub_pi_lt⟩,
    ⟨_, rfl, inCarrier_numPi .binary64, abs_pi64_sub_pi_lt⟩,
    ⟨_, numPi_exactReal, denote_pi⟩⟩

end Sys2Proof.Proofs

/-! The statements of 10_state.md: the reset values, the control state and the phase range as invariants, and which moves write
engine-owned state. -/

namespace Sys2Proof.Proofs

open Sys2Proof Sys2Proof.Machine Sys2Proof.Laws

variable {s t : State} {i : OpIndex} {f amp : Value}

/-! ### The control state as an invariant -/

/-- `slot` goes round 0..5 (40_advance_datapath.md R79). -/
theorem nextSlot_toNat (i : OpIndex) : (nextSlot i).toNat = (i.val + 1) % 6 := by
  rw [nextSlot, BitVec.toNat_ofNat]
  omega

/-- The one index whose slot sets `out_valid` is the one that goes back to 0. -/
theorem nextSlot_eq_zero_of_outValidAfter (h : outValidAfter i = true) : nextSlot i = 0 := by
  have hi : i = 5 := of_decide_eq_true h
  rw [hi]
  rfl

/-- A state with the same `slot`, `out_valid` and ROM is as legal. -/
theorem controlLegal_congr (hs : ControlLegal s) (hslot : t.slot = s.slot) (hvalid : t.outValid = s.outValid)
    (hrom : t.rom = s.rom) : ControlLegal t where
  slotInRange := hslot ▸ hs.slotInRange
  outValidAtBoundary h := hslot.trans (hs.outValidAtBoundary (hvalid ▸ h))
  romCanonical := hrom ▸ hs.romCanonical

theorem setOps_controlLegal (hs : ControlLegal s) (ops : List HostOp) : ControlLegal (setOps s ops) :=
  controlLegal_congr hs rfl rfl rfl

/-- A performed slot leaves a legal `slot` and `out_valid` whatever they were, and the ROM as it is. -/
theorem performSlot_controlLegal (hrom : Memory.wf s.rom = true) (i : OpIndex) (com : BitVec 3) (instr : Instr)
    (route : Wires → Value) : ControlLegal (performSlot s i f amp com instr route) where
  slotInRange := (nextSlot_toNat i).trans_lt (Nat.mod_lt _ (by decide))
  outValidAtBoundary := nextSlot_eq_zero_of_outValidAfter
  romCanonical := by simpa [performSlot] using hrom

theorem resetEngine_controlLegal (hrom : Memory.wf s.rom = true) : ControlLegal (resetEngine s) where
  slotInRange := by simp
  outValidAtBoundary _ := resetEngine_slot s
  romCanonical := hrom

/-- Every move of an agent keeps the control state legal: only a performed slot and reset write any of it. -/
theorem performOp_controlLegal {op : HostOp} (hs : ControlLegal s) (h : performOp op s = .next t) : ControlLegal t := by
  rcases performOp_next h with rfl | ⟨-, r, rfl⟩ | ⟨i, f, amp, prior, instr, -, -, -, rfl⟩ | ⟨i, fr, am, -, -, -, rfl⟩ |
    ⟨a, -, rfl⟩ | ⟨v, -, -, -, rfl⟩ | ⟨v, -, -, rfl⟩ | ⟨-, -, rfl⟩
  · exact hs
  · exact controlLegal_congr hs (raise_slot s r) (raise_outValid s r) (raise_rom s r)
  · exact performSlot_controlLegal hs.romCanonical i prior.com instr _
  · exact controlLegal_congr hs rfl rfl rfl
  · exact controlLegal_congr hs rfl rfl rfl
  · exact controlLegal_congr hs rfl rfl rfl
  · exact controlLegal_congr hs rfl rfl rfl
  · exact resetEngine_controlLegal hs.romCanonical

/-- Settles O54: a step makes one move, and each move keeps the control state legal. -/
theorem stepKeepsControlLegal : Obligations.StepKeepsControlLegal := by
  intro s t hs h
  obtain ⟨op, rest, -, hop⟩ := step_next h
  exact performOp_controlLegal (setOps_controlLegal hs rest) hop

/-! ### The phase range -/

/-- An enabled slot writes to the phase of its index the next phase (40_advance_datapath.md R72). -/
theorem performSlot_phase_self (s : State) (i : OpIndex) (f amp : Value) (com : BitVec 3) (instr : Instr)
    (route : Wires → Value) :
    (performSlot s i f amp com instr route).phase[i] = nextPhase s.num s.phase[i] f := by
  simp [performSlot]

/-- Settles O26: the next phase is the sum or, where that exceeds 1, the sum less 2; a sum in `(-1, 3]` is brought into
`(-1, 1]` by either. -/
theorem phaseStaysInRange : Obligations.PhaseStaysInRange := by
  intro instr s i x g amp prior hen hwf hnum hphase _ _ hlo hhi
  obtain ⟨y, hy, hcases⟩ := nextPhase_exactReal x g
  have hexec := (exec_eq_advanceWith instr s).trans (advanceWith_enabled (routeOf instr) hen hwf)
  refine ⟨_, y, hexec, ?_, ?_, ?_, hcases⟩
  · rw [performSlot_phase_self, hnum, hphase, hy]
  · rcases hcases with ⟨_, e⟩ | ⟨_, e⟩ <;> linarith
  · rcases hcases with ⟨_, e⟩ | ⟨_, e⟩ <;> linarith

/-! ### Who writes engine-owned state -/

/-- The two states agree on the registers that only the engine writes (10_state.md R21). -/
structure SameEngineState (s t : State) : Prop where
  phase : t.phase = s.phase
  mod : t.mod = s.mod
  feedback0 : t.feedback0 = s.feedback0
  feedback1 : t.feedback1 = s.feedback1
  mem : t.mem = s.mem
  algorithmId : t.algorithmId = s.algorithmId
  feedbackLevel : t.feedbackLevel = s.feedbackLevel
  slot : t.slot = s.slot
  outValid : t.outValid = s.outValid

theorem raise_sameEngineState (s : State) (r : FaultRecord) : SameEngineState s (raise s r) := by
  constructor <;> simp

theorem opDrive_sameEngineState {fr am : Option Value} (h : opDrive i fr am s = .next t) : SameEngineState s t := by
  unfold opDrive at h
  split at h <;> cases h
  constructor <;> rfl

theorem opRdout_sameEngineState (h : opRdout s = .next t) : SameEngineState s t := by
  unfold opRdout at h
  split at h <;> cases h <;> constructor <;> rfl

theorem opWralg_sameEngineState {v : Int} (h : opWralg v s = .next t) : SameEngineState s t := by
  unfold opWralg at h
  split at h <;> cases h
  · constructor <;> rfl
  · exact raise_sameEngineState s _

theorem opWrfbl_sameEngineState {v : Value} (h : opWrfbl v s = .next t) : SameEngineState s t := by
  unfold opWrfbl at h
  split at h
  · cases h
    constructor <;> rfl
  · split at h <;> cases h
    exact raise_sameEngineState s _

/-- Of the six moves, only `ADVANCE` and reset write engine-owned state. -/
theorem performOp_sameEngineState {op : HostOp} (h : performOp op s = .next t) (hreset : op ≠ .reset)
    (hadvance : ∀ n, op ≠ .advance n) : SameEngineState s t := by
  cases op with
  | drive i fr am => exact opDrive_sameEngineState h
  | advance n => exact absurd rfl (hadvance n)
  | rdout => exact opRdout_sameEngineState h
  | wralg v => exact opWralg_sameEngineState h
  | wrfbl v => exact opWrfbl_sameEngineState h
  | reset => exact absurd rfl hreset

/-- Settles O49: taking the move from the list leaves the engine alone, and so does every move but the two named. -/
theorem onlyAdvanceWritesEngineState : Obligations.OnlyAdvanceWritesEngineState := by
  intro s t op rest hops h hreset hadvance
  rw [step_cons hops] at h
  obtain ⟨hphase, hmod, hfb0, hfb1, hmem, hid, hlevel, hslot, hvalid⟩ := performOp_sameEngineState h hreset hadvance
  exact ⟨hphase, hmod, hfb0, hfb1, hmem, hid, hlevel, hslot, hvalid⟩

/-! ### Reset -/

/-- Reset of a machine that has just been reset changes nothing: what is known of `resetEngine` holds of the reset state. -/
theorem resetEngine_powerUp (k : NumKind) (mode : MixMode) (m : Memory) :
    resetEngine (State.powerUp k mode m) = State.powerUp k mode m := rfl

/-- After reset every phase is zero, whatever the state was before. -/
theorem resetEngine_phase_getElem (s : State) (i : OpIndex) : (resetEngine s).phase[i] = .lit 0 := by
  simp [Value.zero]

/-- After reset all twelve ports are undriven (92_eei_decisions.md D22). -/
theorem resetEngine_ports_getElem (s : State) (i : OpIndex) :
    (resetEngine s).freqIn[i] = none ∧ (resetEngine s).ampIn[i] = none := by
  simp

/-- Settles O42: the vectors element by element, the other registers as `resetEngine` writes them; `State.reset` is the reset
state of one configuration. -/
theorem resetValues : Obligations.ResetValues := by
  intro k mode m r hr
  have fixed : resetEngine r = r := by
    rcases hr with rfl | rfl
    · exact resetEngine_powerUp k mode m
    · exact resetEngine_powerUp .exactReal .multiply []
  rw [← fixed]
  exact ⟨resetEngine_phase_getElem r, rfl, rfl, rfl, rfl, rfl, rfl, rfl, rfl, rfl, rfl, rfl, resetEngine_ports_getElem r⟩

/-- Settles O55: reset leaves legal control state over any canonical ROM, and the empty one of `State.reset` is canonical. -/
theorem resetControlLegal : Obligations.ResetControlLegal := resetEngine_controlLegal (s := State.reset) wf_reset

/-- Settles O57: reset puts every register at a zero, which every instance has. -/
theorem resetValuesInCarrier : Obligations.ResetValuesInCarrier := fun k mode m =>
  resetEngine_powerUp k mode m ▸ resetEngine_valuesInCarrier (State.powerUp k mode m)

end Sys2Proof.Proofs

/-! The statements of 20_memory.md: the ROM read on a well-formed image, the configuration as what every step leaves alone, the
`com` of a word in its own slot, and the pending registers in mid-frame. -/

namespace Sys2Proof.Proofs

open Sys2Proof Sys2Proof.Machine Sys2Proof.Laws

variable {s t : State} {i : OpIndex} {f amp : Value} {instr instr' : Instr}

/-! ### The ROM read -/

theorem instrOfSel_com {sel com : BitVec 3} {a c d : Bool} (h : instrOfSel sel a c d com = .ok instr) : instr.com = com := by
  unfold instrOfSel at h
  split at h <;> cases h <;> rfl

/-- The decoder gives legal descriptors only (30_encoding.md R57). -/
theorem wf_of_decode {w : RomWord} (h : decode w = .ok instr) : instr.wf = true := by
  unfold decode at h
  split at h
  · cases h
  · rename_i hsel
    split at h <;> cases h
    rename_i hcom
    rw [Instr.wf, instrOfSel_com hsel]
    exact decide_eq_true hcom

/-- An index and its remainder name one address (20_memory.md R31). -/
theorem romAddress_emod (alg : BitVec 5) (idx : Int) : romAddress alg (idx % 6) = romAddress alg idx := by
  simp [romAddress, nOps]

theorem romDescriptor_of_romRead {m : Memory} {alg : BitVec 5} {idx : Int} {w : RomWord} (hw : romRead m alg idx = some w)
    (hdec : decode w = .ok instr) : romDescriptor m alg idx = some instr := by
  simp [romDescriptor, hw, hdec]

/-- Settles O4: the address of any row and index exists, so a well-formed image holds a legal word there; the remainder of
the index names the same address. -/
theorem romReadTotalModuloSix : Obligations.RomReadTotalModuloSix := by
  intro m alg idx hm
  obtain ⟨w, instr, hw, hdec⟩ := wellFormedImage_lookup hm (romAddress_lt alg idx)
  have hmod : romRead m alg (idx % 6) = some w := by rw [romRead, romAddress_emod, hw]
  exact ⟨w, instr, hw, hdec, wf_of_decode hdec, hw, romDescriptor_of_romRead hw hdec, romDescriptor_of_romRead hmod hdec⟩

/-! ### The configuration -/

/-- The two states run under the same configuration: ROM image, `NUM` and `MIX_MODE` (00_scope.md R6). -/
structure SameConfiguration (s t : State) : Prop where
  rom : t.rom = s.rom
  num : t.num = s.num
  mixMode : t.mixMode = s.mixMode

theorem performSlot_sameConfiguration (s : State) (i : OpIndex) (f amp : Value) (com : BitVec 3) (instr : Instr)
    (route : Wires → Value) : SameConfiguration s (performSlot s i f amp com instr route) :=
  ⟨latch_rom s i, latch_num s i, latch_mixMode s i⟩

/-- Every move of an agent leaves the configuration alone. -/
theorem performOp_sameConfiguration {op : HostOp} (h : performOp op s = .next t) : SameConfiguration s t := by
  rcases performOp_next h with rfl | ⟨-, r, rfl⟩ | ⟨i, f, amp, prior, instr, -, -, -, rfl⟩ | ⟨i, fr, am, -, -, -, rfl⟩ |
    ⟨a, -, rfl⟩ | ⟨v, -, -, -, rfl⟩ | ⟨v, -, -, rfl⟩ | ⟨-, -, rfl⟩
  · exact ⟨rfl, rfl, rfl⟩
  · exact ⟨raise_rom s r, raise_num s r, raise_mixMode s r⟩
  · exact performSlot_sameConfiguration s i f amp prior.com instr _
  · exact ⟨rfl, rfl, rfl⟩
  · exact ⟨rfl, rfl, rfl⟩
  · exact ⟨rfl, rfl, rfl⟩
  · exact ⟨rfl, rfl, rfl⟩
  · exact ⟨resetEngine_rom s, resetEngine_num s, resetEngine_mixMode s⟩

/-- Settles O5: a step takes its move from the list, which is no part of the configuration, and makes it. -/
theorem stepKeepsConfiguration : Obligations.StepKeepsConfiguration := by
  intro s t h
  obtain ⟨op, rest, -, hop⟩ := step_next h
  obtain ⟨hrom, hnum, hmode⟩ := performOp_sameConfiguration hop
  exact ⟨hrom, hnum, hmode⟩

/-! ### The `com` of a word in its own slot -/

/-- The two instructions agree in everything but `com`: the selector, as the router it stands for, and `a`, `c`, `d`. -/
structure SameButCom (instr instr' : Instr) : Prop where
  route : routeOf instr = routeOf instr'
  a : instr.a = instr'.a
  c : instr.c = instr'.c
  d : instr.d = instr'.d

/-- Of the descriptor, the datapath reads `a`, `c` and `d` only (40_advance_datapath.md R70). -/
theorem performSlot_eq_of_sameButCom (h : SameButCom instr instr') (s : State) (i : OpIndex) (f amp : Value)
    (com : BitVec 3) (route : Wires → Value) :
    performSlot s i f amp com instr route = performSlot s i f amp com instr' route := by
  simp only [performSlot, wiresOf, h.a, h.c, h.d]

/-- Between legal descriptors that agree but for `com`, no check and no effect of a slot tells a difference. -/
theorem exec_eq_of_sameButCom (h : SameButCom instr instr') (hwf : instr.wf = true) (hwf' : instr'.wf = true) :
    exec instr s = exec instr' s := by
  simp only [exec_eq_advanceWith, advanceWith, h.route, performSlot_eq_of_sameButCom h, hwf, hwf', if_true]

theorem wf_of_com_le (h : instr.com.toNat ≤ 5) : instr.wf = true := decide_eq_true h

/-- Settles O20: each of the six with its `com` replaced agrees with itself but for `com`. -/
theorem ownComUnused : Obligations.OwnComUnused := by
  intro a c d com com' s hcom hcom'
  refine ⟨?_, ?_, ?_, ?_, ?_, ?_⟩ <;>
    exact exec_eq_of_sameButCom ⟨rfl, rfl, rfl, rfl⟩ (wf_of_com_le hcom) (wf_of_com_le hcom')

/-! ### The pending registers in mid-frame -/

/-- The state with other values in the pending registers (10_state.md R18). -/
def withPending (id : BitVec 5) (v : Value) (s : State) : State := { s with algorithmIdPend := id, feedbackLevelPend := v }

theorem raise_withPending (id : BitVec 5) (v : Value) (s : State) (r : FaultRecord) :
    raise (withPending id v s) r = withPending id v (raise s r) := by
  by_cases h : s.fault = .none <;> simp [raise, withPending, h]

/-- Past index 0 the row is the latched one, whatever is pending (40_advance_datapath.md R70). -/
theorem fetchRow_withPending (hi : i ≠ 0) (id : BitVec 5) (v : Value) (s : State) :
    fetchRow (withPending id v s) i = fetchRow s i := by
  simp [fetchRow, withPending, hi]

/-- Past index 0 there is no latch (40_advance_datapath.md R71). -/
theorem latch_of_ne_zero (hi : i ≠ 0) (s : State) : latch s i = s := if_neg hi

/-- Past index 0 the effect of a slot neither reads nor writes the pending registers. -/
theorem performSlot_withPending (hi : i ≠ 0) (id : BitVec 5) (v : Value) (s : State) (f amp : Value) (com : BitVec 3)
    (instr : Instr) (route : Wires → Value) :
    performSlot (withPending id v s) i f amp com instr route = withPending id v (performSlot s i f amp com instr route) := by
  simp only [performSlot, latch_of_ne_zero hi]
  rfl

theorem ne_zero_of_slotIndex? {b : BitVec 3} (hb : b ≠ 0) (h : slotIndex? b = some i) : i ≠ 0 := by
  rintro rfl
  exact hb (BitVec.eq_of_toNat_eq (slotIndex?_eq_some.mp h))

/-- Settles O22: in mid-frame replacing the pending registers leaves what the checks read, and commutes with a raise and with
the slot's effect. -/
theorem midFrameControlInvisible : Obligations.MidFrameControlInvisible := by
  intro instr s t id v hslot h
  rw [exec_eq_advanceWith] at h ⊢
  exact advanceWith_map (withPending id v) rfl rfl rfl rfl rfl rfl (raise_withPending id v s)
    (fun i hi => fetchRow_withPending (ne_zero_of_slotIndex? hslot hi) id v s)
    (fun i f amp com hi => performSlot_withPending (ne_zero_of_slotIndex? hslot hi) id v s f amp com instr _) h

end Sys2Proof.Proofs

/-! The statements of 30_encoding.md: decoding and encoding as inverses, field by field, the reserved words, and the tables of
the mix and of the attenuation over exact reals. -/

namespace Sys2Proof.Proofs

open Sys2Proof Sys2Proof.Machine Sys2Proof.Laws

variable {instr : Instr} {w : RomWord} {sel com : BitVec 3} {a c d : Bool}

/-! ### The five fields of a word -/

/-- A descriptor is its five fields (20_memory.md R32). -/
structure HasFields (instr : Instr) (sel : BitVec 3) (a c d : Bool) (com : BitVec 3) : Prop where
  sel : sel = instr.sel
  a : a = instr.a
  c : c = instr.c
  d : d = instr.d
  com : com = instr.com

/-- The word and the descriptor agree in all five fields (30_encoding.md R50). -/
abbrev WordHasFields (w : RomWord) (instr : Instr) : Prop :=
  HasFields instr (wordSel w) (wordA w) (wordC w) (wordD w) (wordCom w)

theorem encode_hasFields (instr : Instr) : WordHasFields (encode instr) instr := by
  have fields : EncodeFields.Statement instr := by
    cases instr with
    | none a c d com => exact EncodeFields.none a c d com
    | self a c d com => exact EncodeFields.self a c d com
    | mem a c d com => exact EncodeFields.mem a c d com
    | pmem a c d com => exact EncodeFields.pmem a c d com
    | fb a c d com => exact EncodeFields.fb a c d com
    | fbmix a c d com => exact EncodeFields.fbmix a c d com
  obtain ⟨hsel, ha, hc, hd, hcom⟩ := fields
  exact ⟨hsel, ha, hc, hd, hcom⟩

/-- The five fields of a word are all its bits, in the order of 30_encoding.md R50. -/
theorem append_wordFields (w : RomWord) :
    wordSel w ++ (BitVec.ofBool (wordA w) ++ (BitVec.ofBool (wordC w) ++ (BitVec.ofBool (wordD w) ++ wordCom w))) = w := by
  refine BitVec.eq_of_getLsbD_eq fun k hk => ?_
  simp only [BitVec.getLsbD_append, wordSel, wordA, wordC, wordD, wordCom]
  interval_cases k <;> simp

theorem encode_eq_iff : encode instr = w ↔ WordHasFields w instr := by
  constructor
  · rintro rfl
    exact encode_hasFields instr
  · intro h
    rw [encode, ← h.sel, ← h.a, ← h.c, ← h.d, ← h.com, append_wordFields]

/-! ### The decoder -/

/-- The table of selectors gives the one descriptor that has the fields (30_encoding.md R51, R55). -/
theorem instrOfSel_eq_ok_iff : instrOfSel sel a c d com = .ok instr ↔ HasFields instr sel a c d com := by
  constructor
  · intro h
    unfold instrOfSel at h
    split at h <;> cases h
    all_goals
      rename_i hsel
      exact ⟨BitVec.eq_of_toNat_eq hsel, rfl, rfl, rfl, rfl⟩
  · rintro ⟨rfl, rfl, rfl, rfl, rfl⟩
    cases instr <;> rfl

/-- The decoder's one check beside the table is that `com` is legal, which is well-formedness (30_encoding.md R57). -/
theorem decode_eq_ok_iff : decode w = .ok instr ↔ instr.wf = true ∧ WordHasFields w instr := by
  rw [WordHasFields, ← instrOfSel_eq_ok_iff]
  unfold decode
  constructor
  · intro h
    refine ⟨wf_of_decode h, ?_⟩
    split at h
    · cases h
    · split at h <;> cases h
      assumption
  · rintro ⟨hwf, hsel⟩
    rw [Instr.wf, instrOfSel_com hsel] at hwf
    simp only [hsel, of_decide_eq_true hwf, if_true]

/-- Settles O2: decoding and encoding both say that the word and the descriptor agree field by field. -/
theorem decodeEncodeAgree : Obligations.DecodeEncodeAgree := by
  intro w instr
  rw [decode_eq_ok_iff, encode_eq_iff]

theorem decode_of_encode_eq (hwf : instr.wf = true) (h : encode instr = w) : decode w = .ok instr :=
  (decodeEncodeAgree w instr).mpr ⟨hwf, h⟩

/-- Settles O1: each of the six words is the code of a well-formed descriptor; the decoder refuses the other two. -/
theorem decodeOfWrittenWords : Obligations.DecodeOfWrittenWords :=
  ⟨decode_of_encode_eq rfl rfl, decode_of_encode_eq rfl rfl, decode_of_encode_eq rfl rfl, decode_of_encode_eq rfl rfl,
    decode_of_encode_eq rfl rfl, decode_of_encode_eq rfl rfl, rfl, rfl⟩

/-! ### The reserved words -/

theorem wordSel_toNat (w : RomWord) : (wordSel w).toNat = w.toNat / 64 := by
  rw [wordSel, BitVec.extractLsb'_toNat, Nat.shiftRight_eq_div_pow]
  omega

theorem wordCom_toNat (w : RomWord) : (wordCom w).toNat = w.toNat % 8 := by
  simp [wordCom]

theorem sel_toNat_le (instr : Instr) : instr.sel.toNat ≤ 5 := by
  cases instr <;> simp [Instr.sel]

/-- Every selector in 0..5 stands for an instruction, with any other fields (30_encoding.md R55). -/
theorem exists_hasFields (h : sel.toNat ≤ 5) (a c d : Bool) (com : BitVec 3) : ∃ instr, HasFields instr sel a c d com := by
  simp only [← instrOfSel_eq_ok_iff]
  unfold instrOfSel
  interval_cases sel.toNat <;> exact ⟨_, rfl⟩

/-- Settles O3: a word is legal when a well-formed descriptor has its fields; the selector of a descriptor is at most 5, and
each such selector has one. -/
theorem reservedWordsRefused : Obligations.ReservedWordsRefused := by
  intro w
  rw [legalWord_iff, ← wordSel_toNat, ← wordCom_toNat]
  constructor
  · rintro ⟨instr, hdec⟩
    obtain ⟨hwf, hfields⟩ := decode_eq_ok_iff.mp hdec
    rw [hfields.sel, hfields.com]
    exact ⟨sel_toNat_le instr, of_decide_eq_true hwf⟩
  · rintro ⟨hsel, hcom⟩
    obtain ⟨instr, hfields⟩ := exists_hasFields hsel (wordA w) (wordC w) (wordD w) (wordCom w)
    exact ⟨instr, decode_eq_ok_iff.mpr ⟨wf_of_com_le (hfields.com ▸ hcom), hfields⟩⟩

/-! ### The mix and the attenuation over exact reals -/

/-- A coefficient of the mix drops its operand or takes it as it is (30_encoding.md R53). -/
theorem numMul_intToV_exactReal (b : Bool) (x : Exact) :
    numMul .exactReal (intToV b) (.fin x) = .fin (if b then x else .rat 0) := by
  cases b with
  | false => exact congrArg Value.fin (exactMul_zero_left x)
  | true => exact congrArg Value.fin (exactMul_one_left x)

/-- With products the mix is the sum of the operands that its coefficients take (40_advance_datapath.md R77). -/
theorem newMemoryOf_multiply_exactReal (c d : Bool) (m x : Exact) :
    newMemoryOf .exactReal .multiply c d (.fin m) (.fin x) =
      .fin (exactAdd (if c then m else .rat 0) (if d then x else .rat 0)) := by
  rw [newMemoryOf, numMul_intToV_exactReal, numMul_intToV_exactReal, numAdd_exactReal]

/-- Settles O27: the selection is the table itself; with products, an operand that is dropped leaves a zero, which the sum
drops. -/
theorem exactMixTable : Obligations.ExactMixTable := by
  intro mode m x
  cases mode with
  | multiply => simp [newMemoryOf_multiply_exactReal, exactAdd_zero_left, exactAdd_zero_right, Value.lit]
  | select => exact ⟨rfl, rfl, rfl, rfl⟩

/-- Settles O28: over exact reals the quotient is not rounded. -/
theorem exactAttenuationTable : Obligations.ExactAttenuationTable := by
  intro com _
  rw [attenuation, numRecip, numOfRat_exactReal, Nat.cast_add_one]
  rfl

end Sys2Proof.Proofs

/-! The statements of 40_advance_datapath.md: the common step and its parts, the sample over the reals, the operations and the
rounding of the binary formats, silence, and whole frames. -/

namespace Sys2Proof.Proofs

open Sys2Proof Sys2Proof.Machine Sys2Proof.Claims Sys2Proof.Laws

variable {s t : State} {i : OpIndex} {f amp : Value} {instr prior : Instr}
variable {k : NumKind} {fmt : FloatFormat} {x y : Value} {p q r : ℚ} {z b : Bool}

/-! ### The common step -/

/-- An instruction whose slot is enabled performs it (40_advance_datapath.md R84). -/
theorem exec_enabled (h : Enabled s i f amp prior) (hwf : instr.wf = true) :
    exec instr s = .next (performSlot s i f amp prior.com instr (routeOf instr)) :=
  (exec_eq_advanceWith instr s).trans (advanceWith_enabled (routeOf instr) h hwf)

/-- The mix of the slot is the memory recurrence, written as the formula with its two coefficients. -/
theorem newMemoryOf_eq_mixOf (s : State) (c d : Bool) (x : Value) :
    newMemoryOf s.num s.mixMode c d s.mem x = mixOf s c d x := by
  unfold newMemoryOf mixOf
  cases s.mixMode with
  | multiply => rfl
  | select => cases c <;> cases d <;> rfl

/-- What the router chooses from in the slot of index `i`, by the formulas of 40_advance_datapath.md R71, R74, R76, R77. -/
theorem wiresOf_latch (s : State) (i : OpIndex) (f amp : Value) (prior instr : Instr) :
    wiresOf (latch s i) i f amp prior.com instr =
      { num := s.num
        sample := sampleAt s i f amp prior
        newMemory := mixOf s instr.c instr.d (sampleAt s i f amp prior)
        oldMem := s.mem
        tap0 := tap0Of s instr.a (sampleAt s i f amp prior)
        tap1 := tap1Of s instr.a
        level := levelOf s i } := by
  have hsample : sampleOf s.num (nextPhase s.num s.phase[i] f) s.mod amp prior.com = sampleAt s i f amp prior := rfl
  simp only [wiresOf, latch_num, latch_phase, latch_mod, latch_mixMode, latch_mem, latch_feedback0, latch_feedback1,
    latch_feedbackLevel, hsample, newMemoryOf_eq_mixOf, Wires.mk.injEq, true_and]
  cases instr.a <;> exact ⟨rfl, rfl, rfl⟩

/-- The effect of a slot is the state the formulas give, with the router's value in `mod` (40_advance_datapath.md R70). -/
theorem performSlot_eq_slotResult (s : State) (i : OpIndex) (f amp : Value) (prior instr : Instr) (route : Wires → Value) :
    performSlot s i f amp prior.com instr route =
      slotResult s i f amp prior instr.a instr.c instr.d (route (wiresOf (latch s i) i f amp prior.com instr)) := by
  have hvalid : outValidAfter i = decide (i.val = 5) := decide_eq_decide.mpr Fin.ext_iff
  simp only [performSlot, commitSlot, wiresOf_latch, latch_phase, latch_num, hvalid]
  unfold latch slotResult levelOf
  by_cases hi : i = 0
  · simp only [hi, if_true]
    rfl
  · simp only [hi, if_false]
    rfl

/-- An instruction whose slot is enabled completes, with the state the formulas give. -/
theorem exec_eq_slotResult (h : Enabled s i f amp prior) (hwf : instr.wf = true) :
    exec instr s = .next (slotResult s i f amp prior instr.a instr.c instr.d
      (routeOf instr (wiresOf (latch s i) i f amp prior.com instr))) :=
  (exec_enabled h hwf).trans (congrArg _ (performSlot_eq_slotResult s i f amp prior instr _))

/-- Settles O7: the router's value is the one thing the six instructions differ in. -/
theorem everyInstructionPerformsCommonStep : Obligations.EveryInstructionPerformsCommonStep :=
  fun _ _ _ _ _ _ h hwf => ⟨_, exec_eq_slotResult h hwf⟩

/-- Settles O8: the formula of the phase is the accumulator with its one subtraction. -/
theorem phaseAccumulates : Obligations.PhaseAccumulates :=
  fun _ _ _ _ _ _ h hwf => ⟨_, _, exec_eq_slotResult h hwf, rfl, rfl⟩

/-- Settles O9: the formulas of the taps at the two values of the capture bit. -/
theorem feedbackCapture : Obligations.FeedbackCapture := by
  intro instr s i f amp prior h hwf
  refine ⟨_, exec_eq_slotResult h hwf, fun ha => ?_, fun ha => ?_⟩
  · exact ⟨if_pos ha, if_pos ha⟩
  · have hkeep : ¬instr.a = true := by simp [ha]
    exact ⟨if_neg hkeep, if_neg hkeep⟩

/-- With products the mix is the sum of the two products (40_advance_datapath.md R77). -/
theorem mixOf_multiply (hmode : s.mixMode = .multiply) (c d : Bool) (x : Value) :
    mixOf s c d x = numAdd s.num (numMul s.num (intToV c) s.mem) (numMul s.num (intToV d) x) := if_pos hmode

/-- Settles O10: the mix under `MIX_MODE = multiply`. -/
theorem memoryRecurrence : Obligations.MemoryRecurrence :=
  fun _ _ _ _ _ _ h hwf hmode => ⟨_, exec_eq_slotResult h hwf, mixOf_multiply hmode _ _ _⟩

/-- Settles O11: the mix is committed, and the bookkeeping counts the index on. -/
theorem commitAndBookkeeping : Obligations.CommitAndBookkeeping :=
  fun _ _ i _ _ _ h hwf => ⟨_, exec_eq_slotResult h hwf, rfl, decide_eq_true_iff, nextSlot_toNat i⟩

/-- Settles O12: the two latched registers are chosen by whether the index is 0. -/
theorem latchAtSlotZeroOnly : Obligations.LatchAtSlotZeroOnly := by
  intro instr s i f amp prior h hwf
  refine ⟨_, exec_eq_slotResult h hwf, rfl, rfl, fun hi => ?_, fun hi => ?_⟩
  · have hzero : i = 0 := Fin.ext hi
    exact ⟨if_pos hzero, if_pos hzero⟩
  · have hpos : i ≠ 0 := fun e => hi (congrArg Fin.val e)
    exact ⟨if_neg hpos, if_neg hpos⟩

/-! ### The phases of the other slots -/

/-- The state with another value in one phase. -/
def withPhase (j : OpIndex) (v : Value) (s : State) : State := { s with phase := s.phase.set j v }

theorem raise_withPhase (j : OpIndex) (v : Value) (s : State) (r : FaultRecord) :
    raise (withPhase j v s) r = withPhase j v (raise s r) := by
  by_cases h : s.fault = .none <;> simp [raise, withPhase, h]

theorem latch_withPhase (j : OpIndex) (v : Value) (s : State) (i : OpIndex) :
    latch (withPhase j v s) i = withPhase j v (latch s i) := by
  by_cases h : i = 0 <;> simp [latch, withPhase, h]

theorem withPhase_phase_of_ne {j : OpIndex} (hij : i ≠ j) (v : Value) (s : State) :
    (withPhase j v s).phase[i] = s.phase[i] := by
  simp [withPhase, Fin.val_inj, hij.symm]

/-- The wires of a slot read one phase, that of its index (40_advance_datapath.md R80). -/
theorem wiresOf_withPhase {j : OpIndex} (hij : i ≠ j) (v : Value) (s : State) (f amp : Value) (com : BitVec 3)
    (instr : Instr) : wiresOf (withPhase j v s) i f amp com instr = wiresOf s i f amp com instr := by
  simp only [wiresOf, withPhase_phase_of_ne hij]
  rfl

theorem commitSlot_withPhase {j : OpIndex} (hij : i ≠ j) (v : Value) (s : State) (f : Value) (w : Wires) (m : Value) :
    commitSlot (withPhase j v s) i f w m = withPhase j v (commitSlot s i f w m) := by
  have hcomm : ∀ x, (s.phase.set j v).set i x = (s.phase.set i x).set j v :=
    fun x => Vector.set_comm v x (fun e => hij (Fin.ext e.symm))
  simp only [commitSlot, withPhase_phase_of_ne hij]
  simp only [withPhase, hcomm]

/-- The effect of a slot neither reads nor writes the phase of another index. -/
theorem performSlot_withPhase {j : OpIndex} (hij : i ≠ j) (v : Value) (s : State) (f amp : Value) (com : BitVec 3)
    (instr : Instr) (route : Wires → Value) :
    performSlot (withPhase j v s) i f amp com instr route = withPhase j v (performSlot s i f amp com instr route) := by
  simp only [performSlot, latch_withPhase, wiresOf_withPhase hij, commitSlot_withPhase hij]

/-- Settles O21: replacing the phase of another index leaves what the checks read, and commutes with a raise and with the
slot's effect. -/
theorem otherPhasesUnread : Obligations.OtherPhasesUnread := by
  intro instr s t j v hslot h
  rw [exec_eq_advanceWith] at h ⊢
  refine advanceWith_map (withPhase j v) rfl rfl rfl rfl rfl rfl (raise_withPhase j v s) (fun _ _ => rfl) ?_ h
  intro i f amp com hi
  have hij : i ≠ j := by
    rintro rfl
    exact hslot (slotIndex?_eq_some.mp hi)
  exact performSlot_withPhase hij v s f amp com instr _

/-! ### The sample over the reals -/

/-- Settles O23: phase and sample of the slot are those of the real formulas, and the router of `SELF` passes the sample. -/
theorem exactSampleDenotesFormula : Obligations.ExactSampleDenotesFormula := by
  intro a c d com s i x g m am prior hcom hnum hphase hmod h
  obtain ⟨y, hy, hcases⟩ := nextPhase_exactReal x g
  obtain ⟨z, hz, hdenote⟩ := sampleOf_exactReal y m am prior.com
  refine ⟨_, y, z, exec_enabled h (wf_of_com_le hcom), ?_, ?_, hcases, hdenote⟩
  · rw [performSlot_phase_self, hnum, hphase, hy]
  · rw [performSlot, commitSlot_mod, routeOf, routeSelf, wiresOf]
    simp only [latch_num, latch_phase, latch_mod, hnum, hphase, hmod, hy, hz]

/-- The formula of the sample over the reals (40_advance_datapath.md R74). -/
noncomputable def realSample (p m am c : ℝ) : ℝ := Real.sin (Real.pi * (p + 3.85 * m)) * am * (1 / (c + 1))

theorem denote_sampleOf {p m am z : Exact} {com : BitVec 3}
    (h : sampleOf .exactReal (.fin p) (.fin m) (.fin am) com = .fin z) :
    denote z = realSample (denote p) (denote m) (denote am) com.toNat := by
  obtain ⟨z', hz', hdenote⟩ := sampleOf_exactReal p m am com
  obtain rfl : z = z' := Value.fin.inj (h.symm.trans hz')
  exact hdenote

/-- 40_advance_datapath.md R75 (b): the sine is at most 1. -/
theorem abs_realSample_le (p m am : ℝ) {c : ℝ} (hc : 0 ≤ c) : |realSample p m am c| ≤ |am| / (c + 1) := by
  have hpos : (0 : ℝ) ≤ 1 / (c + 1) := by positivity
  have hsin := Real.abs_sin_le_one (Real.pi * (p + 3.85 * m))
  calc |realSample p m am c| = |Real.sin (Real.pi * (p + 3.85 * m))| * |am| * (1 / (c + 1)) := by
        rw [realSample, abs_mul, abs_mul, abs_of_nonneg hpos]
    _ ≤ 1 * |am| * (1 / (c + 1)) := by gcongr
    _ = |am| / (c + 1) := by ring

/-- 40_advance_datapath.md R75 (a): the wrap takes a whole period off the argument of the sine. -/
theorem realSample_sub_two (p m am c : ℝ) : realSample (p - 2) m am c = realSample p m am c := by
  have hperiod : Real.pi * (p - 2 + 3.85 * m) = Real.pi * (p + 3.85 * m) - 2 * Real.pi := by ring
  rw [realSample, realSample, hperiod, Real.sin_sub_two_pi]

/-- 40_advance_datapath.md R75 (c): the sine is odd. -/
theorem realSample_neg (p m am c : ℝ) : realSample (-p) (-m) am c = -realSample p m am c := by
  have hneg : Real.pi * (-p + 3.85 * -m) = -(Real.pi * (p + 3.85 * m)) := by ring
  rw [realSample, realSample, hneg, Real.sin_neg]
  ring

/-- Settles O24: the three laws hold of the formula, which is what every sample denotes. -/
theorem exactSampleLaws : Obligations.ExactSampleLaws := by
  intro p m am z com hz
  rw [denote_sampleOf hz]
  refine ⟨abs_realSample_le _ _ _ (Nat.cast_nonneg _), fun z' hz' => ?_, fun p' m' z' hp hm hz' => ?_⟩
  · rw [denote_sampleOf hz', denote_exactSub, denote_rat, Rat.cast_ofNat, realSample_sub_two]
  · rw [denote_sampleOf hz', hp, hm, realSample_neg]

/-! ### The operations of a binary format -/

/-- Every `NUM` but the exact reals has a format (00_scope.md R6). -/
theorem exists_format (hk : k ≠ .exactReal) : ∃ fmt, k.format? = some fmt := by
  cases k with
  | exactReal => exact absurd rfl hk
  | binary32 => exact ⟨_, rfl⟩
  | binary64 => exact ⟨_, rfl⟩

theorem numAdd_format (hk : k.format? = some fmt) (x y : Value) : numAdd k x y = floatAdd fmt x y := by
  rw [numAdd, hk]

theorem numSub_format (hk : k.format? = some fmt) (x y : Value) : numSub k x y = floatAdd fmt x (floatNegate y) := by
  simp only [numSub, hk]
  rfl

theorem numMul_format (hk : k.format? = some fmt) (x y : Value) : numMul k x y = floatMul fmt x y := by
  rw [numMul, hk]

theorem numSin_format (hk : k.format? = some fmt) (x : Value) : numSin k x = floatSin k fmt x := by
  simp only [numSin, hk]

theorem numGt_format (hk : k.format? = some fmt) (x y : Value) : numGt k x y = floatGt x y := by
  simp only [numGt, hk]

theorem numOfRat_format (hk : k.format? = some fmt) (q : ℚ) : numOfRat k q = roundTo fmt false q := by
  rw [numOfRat, hk]

/-! ### Infinities and not-a-number -/

theorem floatGt_nan_left (x : Value) : floatGt .nan x = false := by
  cases x <;> simp [floatGt, floatRat?]

theorem floatGt_nan_right (x : Value) : floatGt x .nan = false := by
  cases x <;> simp [floatGt, floatRat?]

theorem floatAdd_inf_finite (hx : floatRat? x = some q) : floatAdd fmt (.inf b) x = .inf b := by
  rcases floatRat?_eq_some hx with rfl | ⟨rfl, -⟩ <;> rfl

theorem floatAdd_finite_inf (hx : floatRat? x = some q) : floatAdd fmt x (.inf b) = .inf b := by
  rcases floatRat?_eq_some hx with rfl | ⟨rfl, -⟩ <;> rfl

theorem floatMul_inf_finite (hx : floatRat? x = some q) : floatMul fmt (.inf b) x = floatMulInf b x := by
  rcases floatRat?_eq_some hx with rfl | ⟨rfl, -⟩ <;> rfl

theorem floatMul_finite_inf (hx : floatRat? x = some q) : floatMul fmt x (.inf b) = floatMulInf b x := by
  rcases floatRat?_eq_some hx with rfl | ⟨rfl, -⟩ <;> rfl

theorem floatMulInf_zero (hx : floatRat? x = some 0) : floatMulInf b x = .nan := if_pos hx

/-- The sign of a finite datum that is not zero is that of its number. -/
theorem floatNeg_finite (hx : floatRat? x = some q) (hq : q ≠ 0) : floatNeg x = decide (q < 0) := by
  rcases floatRat?_eq_some hx with rfl | ⟨-, rfl⟩
  · rfl
  · exact absurd rfl hq

theorem floatMulInf_finite (hx : floatRat? x = some q) (hq : q ≠ 0) : floatMulInf b x = .inf (b != decide (q < 0)) := by
  rw [floatMulInf, if_neg (by simpa [hx] using hq), floatNeg_finite hx hq]

theorem floatGt_inf_finite (hx : floatRat? x = some q) : floatGt (.inf b) x = !b := by
  rcases floatRat?_eq_some hx with rfl | ⟨rfl, -⟩ <;> exact Bool.and_true _

theorem floatGt_finite_inf (hx : floatRat? x = some q) : floatGt x (.inf b) = b := by
  rcases floatRat?_eq_some hx with rfl | ⟨rfl, -⟩ <;> exact Bool.and_true _

/-- Settles O30: the rules of 40_advance_datapath.md R83, operand by operand: not-a-number, two infinities, an infinity and a
finite number. -/
theorem nonFiniteOperations : Obligations.NonFiniteOperations := by
  intro k hk
  obtain ⟨fmt, hfmt⟩ := exists_format hk
  simp only [numAdd_format hfmt, numSub_format hfmt, numMul_format hfmt, numSin_format hfmt, numGt_format hfmt]
  refine ⟨fun x => ?_, rfl, fun b c => ?_, fun b x q hx => ?_⟩
  · exact ⟨rfl, floatAdd_nan_right fmt x, rfl, floatAdd_nan_right fmt x, rfl, floatMul_nan_right fmt x,
      floatGt_nan_left x, floatGt_nan_right x⟩
  · have hopposite : floatAdd fmt (.inf b) (.inf !b) = .nan := if_neg (by simp)
    exact ⟨hopposite, if_pos rfl, hopposite, rfl, rfl⟩
  · rw [floatAdd_inf_finite hx, floatAdd_finite_inf hx, floatMul_inf_finite hx, floatMul_finite_inf hx,
      floatGt_inf_finite hx, floatGt_finite_inf hx]
    refine ⟨rfl, rfl, ?_, ?_, by simp, Iff.rfl⟩
    · rintro rfl
      exact ⟨floatMulInf_zero hx, floatMulInf_zero hx⟩
    · intro hq
      exact ⟨floatMulInf_finite hx hq, floatMulInf_finite hx hq⟩

/-! ### Finite operands -/

theorem roundTo_zero (fmt : FloatFormat) (z : Bool) : roundTo fmt z 0 = signedZero z := if_pos rfl

/-- The sign asked for matters for an exact zero only. -/
theorem roundTo_congr_sign {z z' : Bool} (h : q = 0 → z = z') : roundTo fmt z q = roundTo fmt z' q := by
  by_cases hq : q = 0
  · rw [h hq]
  · rw [roundTo, roundTo, if_neg hq, if_neg hq]

theorem floatAdd_finite (hx : floatRat? x = some p) (hy : floatRat? y = some q) :
    floatAdd fmt x y = roundTo fmt (floatNeg x && floatNeg y) (p + q) := by
  have hsum : floatAdd fmt x y = floatFinite2 fmt (floatNeg x && floatNeg y) (· + ·) x y := by
    rcases floatRat?_eq_some hx with rfl | ⟨rfl, -⟩ <;> rcases floatRat?_eq_some hy with rfl | ⟨rfl, -⟩ <;> rfl
  rw [hsum, floatFinite2, hx, hy]

theorem floatMul_finite (hx : floatRat? x = some p) (hy : floatRat? y = some q) :
    floatMul fmt x y = roundTo fmt (floatNeg x != floatNeg y) (p * q) := by
  have hprod : floatMul fmt x y = floatFinite2 fmt (floatNeg x != floatNeg y) (· * ·) x y := by
    rcases floatRat?_eq_some hx with rfl | ⟨rfl, -⟩ <;> rcases floatRat?_eq_some hy with rfl | ⟨rfl, -⟩ <;> rfl
  rw [hprod, floatFinite2, hx, hy]

theorem floatGt_finite (hx : floatRat? x = some p) (hy : floatRat? y = some q) : floatGt x y = decide (p > q) := by
  rcases floatRat?_eq_some hx with rfl | ⟨rfl, rfl⟩ <;> rcases floatRat?_eq_some hy with rfl | ⟨rfl, rfl⟩ <;>
    simp_all [floatGt, floatRat?, Value.lit]

theorem floatRat?_floatNegate (hx : floatRat? x = some q) : floatRat? (floatNegate x) = some (-q) := by
  rcases floatRat?_eq_some hx with rfl | ⟨rfl, rfl⟩
  · by_cases hq : q = 0 <;> simp [Value.lit, floatNegate, floatRat?, hq]
  · simp [Value.lit, floatNegate, floatRat?]

/-- The negative zero is the datum of a zero with the negative sign. -/
theorem floatNeg_of_zero (hx : floatRat? x = some 0) : floatNeg x = decide (x = .negZero) := by
  rcases floatRat?_eq_some hx with rfl | ⟨rfl, -⟩ <;> simp [Value.lit, floatNeg]

theorem floatRat?_nonpos (hx : floatRat? x = some q) (hneg : floatNeg x = true) : q ≤ 0 := by
  rcases floatRat?_eq_some hx with rfl | ⟨-, rfl⟩
  · exact (of_decide_eq_true hneg).le
  · exact le_rfl

/-- An exact zero sum has the negative sign only as the sum of two negative zeros. -/
theorem floatNeg_and_of_add_eq_zero (hx : floatRat? x = some p) (hy : floatRat? y = some q) (h : p + q = 0) :
    (floatNeg x && floatNeg y) = decide (x = .negZero ∧ y = .negZero) := by
  by_cases hp : p = 0
  · obtain rfl : q = 0 := by linarith
    subst hp
    rw [floatNeg_of_zero hx, floatNeg_of_zero hy, Bool.decide_and]
  · have hzero : ¬(floatNeg x = true ∧ floatNeg y = true) := by
      rintro ⟨hnx, hny⟩
      have := floatRat?_nonpos hx hnx
      have := floatRat?_nonpos hy hny
      exact hp (by linarith)
    have hne : x ≠ .negZero := by
      rintro rfl
      exact hp (Option.some.inj hx).symm
    simp [hne, ← Bool.not_eq_true, hzero]

theorem floatNegate_eq_negZero : floatNegate x = .negZero ↔ x = .lit 0 := by
  unfold floatNegate
  split
  · split <;> simp_all [Value.lit]
  all_goals simp_all [Value.lit]

theorem floatAdd_eq_roundTo (hx : floatRat? x = some p) (hy : floatRat? y = some q) :
    floatAdd fmt x y = roundTo fmt (decide (x = .negZero ∧ y = .negZero)) (p + q) :=
  (floatAdd_finite hx hy).trans (roundTo_congr_sign (floatNeg_and_of_add_eq_zero hx hy))

/-- Settles O33: a difference is the sum with the negated operand. -/
theorem floatOperationsRound : Obligations.FloatOperationsRound := by
  intro k fmt x y p q hfmt hx hy
  rw [numAdd_format hfmt, numSub_format hfmt, numMul_format hfmt, numGt_format hfmt]
  refine ⟨floatAdd_eq_roundTo hx hy, ?_, floatMul_finite hx hy, ?_, fun n => numOfRat_format hfmt _⟩
  · rw [floatAdd_eq_roundTo hx (floatRat?_floatNegate hy), ← sub_eq_add_neg]
    simp only [floatNegate_eq_negZero]
  · rw [floatGt_finite hx hy, decide_eq_true_iff]

/-! ### Propagation through the datapath -/

theorem notFinite_nan : NotFinite .nan := .inl rfl

theorem notFinite_inf (b : Bool) : NotFinite (.inf b) := .inr ⟨b, rfl⟩

/-- A sum with an operand that is infinite or not a number is so. -/
theorem notFinite_floatAdd (h : NotFinite x ∨ NotFinite y) : NotFinite (floatAdd fmt x y) := by
  unfold floatAdd
  split
  · exact notFinite_nan
  · exact notFinite_nan
  · split
    · exact notFinite_inf _
    · exact notFinite_nan
  · exact notFinite_inf _
  · exact notFinite_inf _
  · rcases h with (rfl | ⟨b, rfl⟩) | (rfl | ⟨b, rfl⟩) <;> simp_all

theorem notFinite_floatMulInf (b : Bool) (y : Value) : NotFinite (floatMulInf b y) := by
  unfold floatMulInf
  split
  · exact notFinite_nan
  · exact notFinite_inf _

/-- A product with an operand that is infinite or not a number is so. -/
theorem notFinite_floatMul (h : NotFinite x ∨ NotFinite y) : NotFinite (floatMul fmt x y) := by
  unfold floatMul
  split
  · exact notFinite_nan
  · exact notFinite_nan
  · exact notFinite_floatMulInf _ _
  · exact notFinite_floatMulInf _ _
  · rcases h with (rfl | ⟨b, rfl⟩) | (rfl | ⟨b, rfl⟩) <;> simp_all

theorem notFinite_numAdd (hk : k ≠ .exactReal) (h : NotFinite x ∨ NotFinite y) : NotFinite (numAdd k x y) := by
  obtain ⟨fmt, hfmt⟩ := exists_format hk
  rw [numAdd_format hfmt]
  exact notFinite_floatAdd h

theorem notFinite_numSub (hk : k ≠ .exactReal) (h : NotFinite x) (y : Value) : NotFinite (numSub k x y) := by
  obtain ⟨fmt, hfmt⟩ := exists_format hk
  rw [numSub_format hfmt]
  exact notFinite_floatAdd (.inl h)

theorem notFinite_numMul (hk : k ≠ .exactReal) (h : NotFinite x ∨ NotFinite y) : NotFinite (numMul k x y) := by
  obtain ⟨fmt, hfmt⟩ := exists_format hk
  rw [numMul_format hfmt]
  exact notFinite_floatMul h

/-- The sine of an infinity or of not-a-number is not a number. -/
theorem numSin_of_notFinite (hk : k ≠ .exactReal) (h : NotFinite x) : numSin k x = .nan := by
  obtain ⟨fmt, hfmt⟩ := exists_format hk
  rw [numSin_format hfmt]
  rcases h with rfl | ⟨b, rfl⟩ <;> rfl

theorem numGt_nan_left (hk : k ≠ .exactReal) (y : Value) : numGt k .nan y = false := by
  obtain ⟨fmt, hfmt⟩ := exists_format hk
  rw [numGt_format hfmt, floatGt_nan_left]

/-- A phase that is not a number is compared with 1 in vain and stays so. -/
theorem phaseOf_nan (hk : s.num ≠ .exactReal) (h : f = .nan ∨ s.phase[i] = .nan) : phaseOf s i f = .nan := by
  have hsum : numAdd s.num s.phase[i] f = .nan := by
    rcases h with h | h <;> rw [h]
    · exact numAdd_nan_right _ _
    · exact numAdd_nan_left _ _
  simp only [phaseOf, hsum, numGt_nan_left hk, Bool.false_eq_true, if_false]

theorem notFinite_phaseOf (hk : s.num ≠ .exactReal) (h : NotFinite f ∨ NotFinite s.phase[i]) :
    NotFinite (phaseOf s i f) := by
  have hsum : NotFinite (numAdd s.num s.phase[i] f) := notFinite_numAdd hk h.symm
  unfold phaseOf
  simp only
  split
  · exact notFinite_numSub hk hsum _
  · exact hsum

/-- A frequency, phase or `mod` that is infinite or not a number reaches the sine, which makes it not a number; the amplitude is
a factor of the sample. -/
theorem sampleAt_nan (hk : s.num ≠ .exactReal) (h : NotFinite f ∨ NotFinite s.phase[i] ∨ NotFinite s.mod ∨ amp = .nan) :
    sampleAt s i f amp prior = .nan := by
  have of_argument (hp : NotFinite (phaseOf s i f) ∨ NotFinite s.mod) : sampleAt s i f amp prior = .nan := by
    have harg := notFinite_numMul hk (x := numPi s.num)
      (.inr (notFinite_numAdd hk (hp.imp_right fun h => notFinite_numMul hk (x := numOfRat s.num (77 / 20)) (.inr h))))
    rw [sampleAt, numSin_of_notFinite hk harg, numMul_nan_left, numMul_nan_left]
  rcases h with h | h | h | h
  · exact of_argument (.inl (notFinite_phaseOf hk (.inl h)))
  · exact of_argument (.inl (notFinite_phaseOf hk (.inr h)))
  · exact of_argument (.inr h)
  · rw [sampleAt, h, numMul_nan_right, numMul_nan_left]

theorem notFinite_sampleAt (hk : s.num ≠ .exactReal) (h : NotFinite amp) : NotFinite (sampleAt s i f amp prior) :=
  notFinite_numMul hk (.inl (notFinite_numMul hk (.inr h)))

/-- With products, not-a-number passes into `mem` from the old `mem` or the sample, whatever the coefficients: 0 times
not-a-number is not a number. -/
theorem mixOf_nan (hmode : s.mixMode = .multiply) (c d : Bool) (h : s.mem = .nan ∨ x = .nan) : mixOf s c d x = .nan := by
  rw [mixOf_multiply hmode]
  rcases h with h | h <;> rw [h, numMul_nan_right]
  · exact numAdd_nan_left _ _
  · exact numAdd_nan_right _ _

theorem notFinite_mixOf (hk : s.num ≠ .exactReal) (hmode : s.mixMode = .multiply) (c d : Bool) (h : NotFinite x) :
    NotFinite (mixOf s c d x) := by
  rw [mixOf_multiply hmode]
  exact notFinite_numAdd hk (.inr (notFinite_numMul hk (.inr h)))

theorem tap0Of_capture (ha : instr.a = true) (s : State) (x : Value) : tap0Of s instr.a x = x := if_pos ha

/-- The router of selector 1 passes the sample (41_selector_instructions.md R91). -/
theorem routeOf_of_sel_one (h : instr.sel = 1) (w : Wires) : routeOf instr w = w.sample := by
  cases instr with
  | self => rfl
  | none | mem | pmem | fb | fbmix => simp [Instr.sel] at h

/-- The router of selector 0 gives zero (41_selector_instructions.md R90). -/
theorem routeOf_of_sel_zero (h : instr.sel = 0) (w : Wires) : routeOf instr w = .lit 0 := by
  cases instr with
  | none => rfl
  | self | mem | pmem | fb | fbmix => simp [Instr.sel] at h

/-- Settles O29: each register of the next state takes its formula, and each formula passes infinities and not-a-number on. -/
theorem notANumberPropagates : Obligations.NotANumberPropagates := by
  intro instr s i f amp prior h hwf hk
  have hphase {m : Value} : (slotResult s i f amp prior instr.a instr.c instr.d m).phase[i] = phaseOf s i f := by
    simp [slotResult]
  have hmod (hsel : instr.sel = 1) : routeOf instr (wiresOf (latch s i) i f amp prior.com instr) =
      sampleAt s i f amp prior := by
    rw [routeOf_of_sel_one hsel, wiresOf_latch]
  refine ⟨_, exec_eq_slotResult h hwf, fun hmode hmem => mixOf_nan hmode _ _ (.inl hmem), ?_, ?_, ?_, ?_,
    fun hsel => routeOf_of_sel_zero hsel _⟩
  · exact fun hnan => hphase.trans (phaseOf_nan hk hnan)
  · exact fun hinf => hphase ▸ notFinite_phaseOf hk hinf
  · intro hinf
    have hsample : sampleAt s i f amp prior = .nan := sampleAt_nan hk hinf
    exact ⟨hsample, fun hmode => mixOf_nan hmode _ _ (.inr hsample),
      fun ha => (tap0Of_capture ha s _).trans hsample, fun hsel => (hmod hsel).trans hsample⟩
  · intro hinf
    have hsample : NotFinite (sampleAt s i f amp prior) := notFinite_sampleAt hk hinf
    exact ⟨hsample, fun hmode => notFinite_mixOf hk hmode _ _ hsample,
      fun ha => (congrArg NotFinite (tap0Of_capture ha s _)).mpr hsample,
      fun hsel => (congrArg NotFinite (hmod hsel)).mpr hsample⟩

/-! ### The numbers of a format -/

/-- What rounding needs of a format: its numbers have digits, and it has normal numbers. -/
structure LegalFormat (fmt : FloatFormat) : Prop where
  precision_pos : 0 < fmt.precision
  emin_le_emax : fmt.emin ≤ fmt.emax

theorem legalFormat (h : k.format? = some fmt) : LegalFormat fmt := by
  cases k with
  | exactReal => cases h
  | binary32 | binary64 =>
    cases h
    exact ⟨by decide, by decide⟩

theorem two_zpow_mul (e e' : ℤ) : (2 : ℚ) ^ e * 2 ^ e' = 2 ^ (e + e') := (zpow_add₀ two_ne_zero e e').symm

theorem two_zpow_le {e e' : ℤ} (h : e ≤ e') : (2 : ℚ) ^ e ≤ 2 ^ e' := zpow_le_zpow_right₀ one_le_two h

theorem two_zpow_lt_iff {e e' : ℤ} : (2 : ℚ) ^ e < 2 ^ e' ↔ e < e' := zpow_lt_zpow_iff_right₀ one_lt_two

/-- A multiple of a unit is a multiple of every smaller unit. -/
theorem exists_smaller_unit (m : ℤ) {u t : ℤ} (h : u ≤ t) : ∃ j : ℤ, (m : ℚ) * 2 ^ t = j * 2 ^ u := by
  refine ⟨m * 2 ^ (t - u).toNat, ?_⟩
  push_cast
  rw [mul_assoc, ← zpow_natCast, two_zpow_mul, Int.toNat_of_nonneg (by omega), sub_add_cancel]

theorem isFormatNumber_neg (h : IsFormatNumber fmt r) : IsFormatNumber fmt (-r) := by
  obtain ⟨m, t, rfl, hm, hlo, hhi⟩ := h
  exact ⟨-m, t, by push_cast; ring, by rwa [abs_neg], hlo, hhi⟩

theorem isFormatNumber_zero (hfmt : LegalFormat fmt) : IsFormatNumber fmt 0 :=
  ⟨0, fmt.emax - ((fmt.precision : ℤ) - 1), by simp, by simp, by have := hfmt.emin_le_emax; omega, le_rfl⟩

/-- The numbers of a format stay below the next power of two. -/
theorem abs_lt_of_isFormatNumber (h : IsFormatNumber fmt r) : |r| < 2 ^ (fmt.emax + 1) := by
  obtain ⟨m, t, rfl, hm, -, hhi⟩ := h
  have hmq : |(m : ℚ)| < 2 ^ (fmt.precision : ℤ) := by
    rw [zpow_natCast]
    exact_mod_cast hm
  calc |(m : ℚ) * 2 ^ t| = |(m : ℚ)| * 2 ^ t := by rw [abs_mul, abs_of_pos (two_zpow_pos t)]
    _ < 2 ^ (fmt.precision : ℤ) * 2 ^ t := mul_lt_mul_of_pos_right hmq (two_zpow_pos t)
    _ = 2 ^ ((fmt.precision : ℤ) + t) := two_zpow_mul _ _
    _ ≤ 2 ^ (fmt.emax + 1) := two_zpow_le (by omega)

/-- The next power of two above a format is `2^precision` of its largest units. -/
theorem pow_emax_add_one (fmt : FloatFormat) :
    (2 : ℚ) ^ (fmt.emax + 1) = 2 ^ fmt.precision * 2 ^ (fmt.emax - ((fmt.precision : ℤ) - 1)) := by
  rw [← zpow_natCast, two_zpow_mul]
  congr 1
  ring

/-- A count of units from the largest on is a count of the largest. -/
theorem isFormatNumber_large_units (hfmt : LegalFormat fmt) {m : ℕ} {u : ℤ} (hu : fmt.emax - ((fmt.precision : ℤ) - 1) ≤ u)
    (hlt : (m : ℚ) * 2 ^ u < 2 ^ (fmt.emax + 1)) : IsFormatNumber fmt (m * 2 ^ u) := by
  have he := hfmt.emin_le_emax
  obtain ⟨j, hj⟩ := exists_smaller_unit m hu
  rw [Int.cast_natCast] at hj
  refine ⟨j, _, hj, ?_, by omega, le_rfl⟩
  have hpos := two_zpow_pos (fmt.emax - ((fmt.precision : ℤ) - 1))
  have habs : |(j : ℚ)| * 2 ^ (fmt.emax - ((fmt.precision : ℤ) - 1)) = m * 2 ^ u := by
    rw [← abs_of_nonneg (by positivity : (0 : ℚ) ≤ m * 2 ^ u), hj, abs_mul, abs_of_pos hpos]
  rw [← habs, pow_emax_add_one] at hlt
  exact_mod_cast lt_of_mul_lt_mul_right hlt hpos.le

/-- A count of at most `2^precision` units of the format or larger, below the next power of two, is a number of the format. -/
theorem isFormatNumber_units (hfmt : LegalFormat fmt) {m : ℕ} {u : ℤ} (hm : m ≤ 2 ^ fmt.precision)
    (hu : fmt.emin - ((fmt.precision : ℤ) - 1) ≤ u) (hlt : (m : ℚ) * 2 ^ u < 2 ^ (fmt.emax + 1)) :
    IsFormatNumber fmt (m * 2 ^ u) := by
  rcases le_or_gt (fmt.emax - ((fmt.precision : ℤ) - 1)) u with hlarge | hsmall
  · exact isFormatNumber_large_units hfmt hlarge hlt
  · rcases hm.lt_or_eq with hm | rfl
    · exact ⟨m, u, by simp, by rw [Nat.abs_cast]; exact_mod_cast hm, hu, hsmall.le⟩
    · -- The one count that needs another digit is half as many of the next unit.
      obtain ⟨n, hn⟩ : ∃ n, fmt.precision = n + 1 := Nat.exists_eq_add_one.mpr hfmt.precision_pos
      refine ⟨2 ^ n, u + 1, ?_, ?_, by omega, hsmall⟩
      · rw [hn, zpow_add_one₀ two_ne_zero]
        push_cast
        ring
      · rw [abs_of_pos (by positivity), hn]
        exact pow_lt_pow_right₀ one_lt_two n.lt_succ_self

/-! ### The rounded magnitude -/

section Magnitude

variable {n d : ℕ}

/-- A rounded magnitude is a count of its units. -/
theorem roundMagnitude_eq (fmt : FloatFormat) (n d : ℕ) :
    roundMagnitude fmt n d = (roundUnits n d (unitExponent fmt n d) : ℚ) * 2 ^ unitExponent fmt n d := scaledRat_eq _ _

/-- Rounding is within half a unit. -/
theorem roundMagnitude_near (fmt : FloatFormat) (hd : 0 < d) :
    |roundMagnitude fmt n d - (n : ℚ) / d| ≤ 2 ^ unitExponent fmt n d / 2 := by
  rw [roundMagnitude_eq]
  exact roundUnits_near hd _

/-- Below the overflow bound, rounding gives a number of the format. -/
theorem isFormatNumber_roundMagnitude (hfmt : LegalFormat fmt) (hn : 0 < n) (hd : 0 < d)
    (h : roundMagnitude fmt n d < 2 ^ (fmt.emax + 1)) : IsFormatNumber fmt (roundMagnitude fmt n d) := by
  rw [roundMagnitude_eq] at h ⊢
  exact isFormatNumber_units hfmt (roundUnits_le fmt hn hd) (unitExponent_spec fmt hn hd).2 h

/-- In a normal number `2^(precision - 1)` units make one of the leading digit. -/
theorem leading_unit_eq (hfmt : LegalFormat fmt)
    (hu : unitExponent fmt n d = binaryExponent n d - ((fmt.precision : ℤ) - 1)) :
    ((2 ^ (fmt.precision - 1) : ℕ) : ℚ) * 2 ^ unitExponent fmt n d = 2 ^ binaryExponent n d := by
  have hp := hfmt.precision_pos
  push_cast
  rw [← zpow_natCast, two_zpow_mul]
  congr 1
  omega

/-- A unit above the format's smallest is that of a normal number, whose leading digit is at most the number. -/
theorem leading_unit (hfmt : LegalFormat fmt) (hn : 0 < n) (hd : 0 < d)
    (h : fmt.emin - ((fmt.precision : ℤ) - 1) < unitExponent fmt n d) :
    ((2 ^ (fmt.precision - 1) : ℕ) : ℚ) * 2 ^ unitExponent fmt n d ≤ (n : ℚ) / d := by
  rw [leading_unit_eq hfmt (by unfold unitExponent at *; omega)]
  exact (binaryExponent_spec hn hd).1

/-- Rounding does not cross a whole count of units. -/
theorem units_le_roundMagnitude (fmt : FloatFormat) (hd : 0 < d) {j : ℕ}
    (h : (j : ℚ) * 2 ^ unitExponent fmt n d ≤ (n : ℚ) / d) :
    (j : ℚ) * 2 ^ unitExponent fmt n d ≤ roundMagnitude fmt n d := by
  have hnear := (abs_le.mp (roundMagnitude_near fmt (n := n) hd)).1
  rw [roundMagnitude_eq] at hnear ⊢
  generalize unitExponent fmt n d = u at *
  have hu := two_zpow_pos u
  have hlt : (j : ℚ) < roundUnits n d u + 1 := by
    by_contra hge
    nlinarith
  have hle : j ≤ roundUnits n d u := Nat.lt_succ_iff.mp (by exact_mod_cast hlt)
  gcongr

/-- Half a unit above the largest finite number of the format. -/
def overflowBound (fmt : FloatFormat) : ℚ := 2 ^ (fmt.emax + 1) - 2 ^ (fmt.emax - fmt.precision)

/-- The format's largest unit is twice the amount the overflow bound lies below the next power of two. -/
theorem largest_unit (fmt : FloatFormat) :
    (2 : ℚ) ^ (fmt.emax - ((fmt.precision : ℤ) - 1)) = 2 * 2 ^ (fmt.emax - fmt.precision) := by
  rw [← zpow_one_add₀ two_ne_zero]
  congr 1
  ring

theorem pow_emax_le_overflowBound (hfmt : LegalFormat fmt) : (2 : ℚ) ^ fmt.emax ≤ overflowBound fmt := by
  have hp := hfmt.precision_pos
  have h : (2 : ℚ) ^ (fmt.emax - fmt.precision) ≤ 2 ^ fmt.emax := two_zpow_le (by omega)
  rw [overflowBound, zpow_add_one₀ two_ne_zero]
  linarith

theorem overflowBound_pos (hfmt : LegalFormat fmt) : 0 < overflowBound fmt :=
  (two_zpow_pos _).trans_le (pow_emax_le_overflowBound hfmt)

theorem roundMagnitude_lt (hfmt : LegalFormat fmt) (hn : 0 < n) (hd : 0 < d) (h : (n : ℚ) / d < overflowBound fmt) :
    roundMagnitude fmt n d < 2 ^ (fmt.emax + 1) := by
  have he := hfmt.emin_le_emax
  have hsmall : (n : ℚ) / d < 2 ^ (fmt.emax - ((fmt.precision : ℤ) - 1) + fmt.precision) := by
    refine h.trans_le ((sub_le_self _ (two_zpow_pos _).le).trans (two_zpow_le ?_))
    omega
  have hunit := two_zpow_le (unitExponent_le fmt hn hd (by omega) hsmall)
  have hnear := (abs_le.mp (roundMagnitude_near fmt (n := n) hd)).2
  rw [largest_unit] at hunit
  rw [overflowBound] at h
  linarith

/-- With the largest unit, a number from the bound on is rounded up. The largest number of the format is an odd count of
units, so that at the tie the even next one is taken. -/
theorem le_roundMagnitude_of_largest_unit (hfmt : LegalFormat fmt) (hd : 0 < d)
    (hu : unitExponent fmt n d = fmt.emax - ((fmt.precision : ℤ) - 1)) (h : overflowBound fmt ≤ (n : ℚ) / d) :
    2 ^ (fmt.emax + 1) ≤ roundMagnitude fmt n d := by
  have htop : (2 : ℚ) ^ (fmt.emax + 1) = 2 ^ fmt.precision * 2 ^ unitExponent fmt n d := by
    rw [← zpow_natCast, two_zpow_mul]
    congr 1
    omega
  have hhalf : (2 : ℚ) ^ unitExponent fmt n d = 2 * 2 ^ (fmt.emax - fmt.precision) := by rw [← largest_unit, hu]
  have hlargest : ((2 ^ fmt.precision - 1 : ℕ) : ℚ) * 2 ^ unitExponent fmt n d =
      2 ^ (fmt.emax + 1) - 2 ^ unitExponent fmt n d := by
    rw [Nat.cast_sub Nat.one_le_two_pow, htop]
    push_cast
    ring
  have hpos := two_zpow_pos (fmt.emax - fmt.precision)
  rw [overflowBound] at h
  have hle := units_le_roundMagnitude fmt hd (n := n) (j := 2 ^ fmt.precision - 1) (by linarith)
  rw [roundMagnitude_eq] at hle ⊢
  have hunits : 2 ^ fmt.precision - 1 ≤ roundUnits n d (unitExponent fmt n d) := by
    exact_mod_cast le_of_mul_le_mul_right hle (two_zpow_pos _)
  rcases hunits.lt_or_eq with hlt | hodd
  · have hcount : 2 ^ fmt.precision ≤ roundUnits n d (unitExponent fmt n d) := by omega
    rw [htop]
    gcongr
    exact_mod_cast hcount
  · have htie : 2 ^ unitExponent fmt n d / 2 ≤
        |(roundUnits n d (unitExponent fmt n d) : ℚ) * 2 ^ unitExponent fmt n d - n / d| := by
      rw [← hodd, hlargest, abs_sub_comm]
      exact le_trans (by linarith) (le_abs_self _)
    have heven := roundUnits_even hd _ (le_antisymm (roundUnits_near hd _) htie)
    have hpow : 2 ^ fmt.precision = 2 * 2 ^ (fmt.precision - 1) := by
      rw [← pow_succ', Nat.sub_add_cancel hfmt.precision_pos]
    have hone := Nat.one_le_two_pow (n := fmt.precision - 1)
    omega

theorem le_roundMagnitude (hfmt : LegalFormat fmt) (hn : 0 < n) (hd : 0 < d) (h : overflowBound fmt ≤ (n : ℚ) / d) :
    2 ^ (fmt.emax + 1) ≤ roundMagnitude fmt n d := by
  have he := hfmt.emin_le_emax
  obtain ⟨hlo, hhi⟩ := binaryExponent_spec hn hd
  have hexp : fmt.emax < binaryExponent n d + 1 :=
    two_zpow_lt_iff.mp (((pow_emax_le_overflowBound hfmt).trans h).trans_lt hhi)
  have hunit : unitExponent fmt n d = binaryExponent n d - ((fmt.precision : ℤ) - 1) := by
    unfold unitExponent
    omega
  rcases (Int.lt_add_one_iff.mp hexp).lt_or_eq with hbig | heq
  · have hlead := leading_unit_eq hfmt hunit
    calc (2 : ℚ) ^ (fmt.emax + 1) ≤ 2 ^ binaryExponent n d := two_zpow_le hbig
      _ = ((2 ^ (fmt.precision - 1) : ℕ) : ℚ) * 2 ^ unitExponent fmt n d := hlead.symm
      _ ≤ roundMagnitude fmt n d := units_le_roundMagnitude fmt hd (hlead.trans_le hlo)
  · exact le_roundMagnitude_of_largest_unit hfmt hd (by rw [hunit, heq]) h

/-- Rounding overflows exactly from the bound on. -/
theorem le_roundMagnitude_iff (hfmt : LegalFormat fmt) (hn : 0 < n) (hd : 0 < d) :
    2 ^ (fmt.emax + 1) ≤ roundMagnitude fmt n d ↔ overflowBound fmt ≤ (n : ℚ) / d :=
  ⟨fun h => not_lt.mp fun hlt => (roundMagnitude_lt hfmt hn hd hlt).not_ge h, le_roundMagnitude hfmt hn hd⟩

/-! ### Nearest numbers of the format -/

/-- `r` is a number of the format nearest to `q`, as far as others are compared with it, and of two nearest ones the even
multiple of the gap between them (93_implementation_defined.md G3). -/
def NearestEven (fmt : FloatFormat) (q r : ℚ) : Prop :=
  ∀ r', IsFormatNumber fmt r' →
    |r - q| ≤ |r' - q| ∧ (r' ≠ r → |r - q| = |r' - q| → ∃ j : ℤ, r = 2 * j * |r' - r|)

theorem nearestEven_neg (h : NearestEven fmt q r) : NearestEven fmt (-q) (-r) := by
  intro r' hr'
  obtain ⟨hle, htie⟩ := h (-r') (isFormatNumber_neg hr')
  have e1 : |-r - -q| = |r - q| := by rw [← abs_neg]; congr 1; ring
  have e2 : |r' - -q| = |-r' - q| := by rw [← abs_neg]; congr 1; ring
  have e3 : |r' - -r| = |-r' - r| := by rw [← abs_neg]; congr 1; ring
  rw [e1, e2, e3]
  refine ⟨hle, fun hne heq => ?_⟩
  obtain ⟨j, hj⟩ := htie (fun e => hne (by rw [← e, neg_neg])) heq
  exact ⟨-j, by push_cast; linarith⟩

/-- A number of the format is a whole count of the units of `n / d`, or lies below such a count that is at most `n / d`. -/
theorem whole_or_below (hfmt : LegalFormat fmt) (hn : 0 < n) (hd : 0 < d) (hr : IsFormatNumber fmt r) :
    (∃ j : ℤ, r = j * 2 ^ unitExponent fmt n d) ∨
      ∃ j : ℕ, r < j * 2 ^ unitExponent fmt n d ∧ (j : ℚ) * 2 ^ unitExponent fmt n d ≤ (n : ℚ) / d := by
  obtain ⟨m, t, rfl, hm, hlo, -⟩ := hr
  rcases le_or_gt (unitExponent fmt n d) t with hle | hlt
  · exact .inl (exists_smaller_unit m hle)
  · refine .inr ⟨_, ?_, leading_unit hfmt hn hd (by omega)⟩
    have hp := hfmt.precision_pos
    have hmq : (m : ℚ) < 2 ^ (fmt.precision : ℤ) := by
      rw [zpow_natCast]
      exact_mod_cast (le_abs_self m).trans_lt hm
    calc (m : ℚ) * 2 ^ t < 2 ^ (fmt.precision : ℤ) * 2 ^ t := mul_lt_mul_of_pos_right hmq (two_zpow_pos t)
      _ = 2 ^ ((fmt.precision : ℤ) + t) := two_zpow_mul _ _
      _ ≤ 2 ^ (((fmt.precision - 1 : ℕ) : ℤ) + unitExponent fmt n d) := two_zpow_le (by omega)
      _ = ((2 ^ (fmt.precision - 1) : ℕ) : ℚ) * 2 ^ unitExponent fmt n d := by
        rw [← two_zpow_mul, zpow_natCast]
        push_cast
        rfl

/-- Among the whole counts of units rounding takes a nearest one. -/
theorem roundMagnitude_nearest_whole (fmt : FloatFormat) (hd : 0 < d) (j : ℤ) :
    |roundMagnitude fmt n d - (n : ℚ) / d| ≤ |j * 2 ^ unitExponent fmt n d - (n : ℚ) / d| := by
  have hnear := roundMagnitude_near fmt (n := n) hd
  rw [roundMagnitude_eq] at hnear ⊢
  rcases le_or_gt 0 j with hj | hj
  · obtain ⟨j, rfl⟩ := Int.eq_ofNat_of_zero_le hj
    exact_mod_cast nearest_of_near hnear j
  · refine (nearest_of_near hnear 0).trans ?_
    have hx : 0 ≤ (n : ℚ) / d := by positivity
    have hneg : (j : ℚ) * 2 ^ unitExponent fmt n d ≤ 0 :=
      mul_nonpos_of_nonpos_of_nonneg (by exact_mod_cast hj.le) (two_zpow_pos _).le
    rw [Nat.cast_zero, zero_mul, zero_sub, abs_neg, abs_of_nonneg hx, abs_of_nonpos (by linarith)]
    linarith

/-- Two whole counts of units equally near lie half a unit off, and rounding takes the even one. -/
theorem roundMagnitude_tie (fmt : FloatFormat) (hd : 0 < d) {j : ℤ}
    (hne : (j : ℚ) * 2 ^ unitExponent fmt n d ≠ roundMagnitude fmt n d)
    (h : |roundMagnitude fmt n d - (n : ℚ) / d| = |j * 2 ^ unitExponent fmt n d - (n : ℚ) / d|) :
    ∃ l : ℤ, roundMagnitude fmt n d = 2 * l * |j * 2 ^ unitExponent fmt n d - roundMagnitude fmt n d| := by
  have hnear := roundMagnitude_near fmt (n := n) hd
  have heven := roundUnits_even (n := n) hd (unitExponent fmt n d)
  rw [roundMagnitude_eq] at *
  generalize unitExponent fmt n d = u at *
  generalize roundUnits n d u = m at *
  generalize (n : ℚ) / d = x at *
  have hu := two_zpow_pos u
  -- The two lie on either side, so their distance is twice that of either and at most one unit; it is a whole count.
  have hopposite : (m : ℚ) * 2 ^ u - x = -(j * 2 ^ u - x) :=
    (abs_eq_abs.mp h).resolve_left fun e => hne (by linarith)
  have hgap : |(j : ℚ) * 2 ^ u - m * 2 ^ u| = 2 * |(m : ℚ) * 2 ^ u - x| := by
    rw [show (j : ℚ) * 2 ^ u - m * 2 ^ u = -(2 * (m * 2 ^ u - x)) by linarith, abs_neg, abs_mul, abs_two]
  have hwhole : |(j : ℚ) * 2 ^ u - m * 2 ^ u| = |(j - m : ℤ)| * 2 ^ u := by
    rw [← sub_mul, abs_mul, abs_of_pos hu]
    push_cast
    rfl
  have hone : (1 : ℚ) ≤ (|(j - m : ℤ)| : ℤ) := by
    have : j - m ≠ 0 := fun e => hne (by rw [sub_eq_zero.mp e, Int.cast_natCast])
    exact_mod_cast Int.one_le_abs this
  have hunit : |(j : ℚ) * 2 ^ u - m * 2 ^ u| = 2 ^ u := by
    refine le_antisymm (by linarith) ?_
    rw [hwhole]
    exact le_mul_of_one_le_left hu.le (by exact_mod_cast hone)
  obtain ⟨l, hl⟩ := Nat.dvd_of_mod_eq_zero (heven (by linarith))
  refine ⟨l, ?_⟩
  rw [hunit, hl]
  push_cast
  ring

/-- Rounding a magnitude gives a nearest number of the format, the even one of two. -/
theorem roundMagnitude_nearestEven (hfmt : LegalFormat fmt) (hn : 0 < n) (hd : 0 < d) :
    NearestEven fmt ((n : ℚ) / d) (roundMagnitude fmt n d) := by
  intro r' hr'
  rcases whole_or_below hfmt hn hd hr' with ⟨j, rfl⟩ | ⟨j, hlt, hle⟩
  · exact ⟨roundMagnitude_nearest_whole fmt hd j, fun hne heq => roundMagnitude_tie fmt hd hne heq⟩
  · have hstrict : |roundMagnitude fmt n d - (n : ℚ) / d| < |r' - (n : ℚ) / d| := by
      refine (roundMagnitude_nearest_whole fmt hd j).trans_lt ?_
      rw [Int.cast_natCast, abs_of_nonpos (by linarith), abs_of_neg (by linarith)]
      linarith
    exact ⟨hstrict.le, fun _ heq => absurd heq hstrict.ne⟩

end Magnitude

/-! ### Rounding into the format -/

/-- The magnitude of `q` after rounding, before the test for overflow. -/
def roundAbs (fmt : FloatFormat) (q : ℚ) : ℚ := roundMagnitude fmt q.num.natAbs q.den

/-- `x` with the sign of `q`. -/
def withSignOf (q x : ℚ) : ℚ := if q < 0 then -x else x

theorem withSignOf_abs (q : ℚ) : withSignOf q |q| = q := by
  unfold withSignOf
  split
  · rename_i h
    rw [abs_of_neg h, neg_neg]
  · rename_i h
    exact abs_of_nonneg (not_lt.mp h)

theorem withSignOf_eq_zero : withSignOf q r = 0 ↔ r = 0 := by
  unfold withSignOf
  split <;> simp

theorem natAbs_num_pos (hq : q ≠ 0) : 0 < q.num.natAbs := Int.natAbs_pos.mpr (Rat.num_ne_zero.mpr hq)

/-- A nonzero number rounds, in its own sign, to an infinity, to a zero or to its rounded magnitude. -/
theorem roundTo_of_ne_zero (hq : q ≠ 0) (z : Bool) :
    roundTo fmt z q =
      if 2 ^ (fmt.emax + 1) ≤ roundAbs fmt q then .inf (decide (q < 0))
      else if roundAbs fmt q = 0 then signedZero (decide (q < 0)) else .lit (withSignOf q (roundAbs fmt q)) := by
  rw [roundTo, if_neg hq, scaledRat_eq, Nat.cast_one, one_mul]
  rfl

theorem floatRat?_signedZero (z : Bool) : floatRat? (signedZero z) = some 0 := by
  cases z <;> rfl

theorem signedZero_eq_negZero : signedZero z = .negZero ↔ z = true := by
  cases z <;> simp [signedZero, Value.lit]

theorem roundAbs_lt_iff (hfmt : LegalFormat fmt) (hq : q ≠ 0) :
    roundAbs fmt q < 2 ^ (fmt.emax + 1) ↔ |q| < overflowBound fmt := by
  rw [← not_le, roundAbs, le_roundMagnitude_iff hfmt (natAbs_num_pos hq) q.den_pos, natAbs_div_den, not_le]

/-- Below the overflow bound a nonzero number rounds to its rounded magnitude in its own sign. -/
theorem floatRat?_roundTo (hfmt : LegalFormat fmt) (hq : q ≠ 0) (h : |q| < overflowBound fmt) (z : Bool) :
    floatRat? (roundTo fmt z q) = some (withSignOf q (roundAbs fmt q)) := by
  rw [roundTo_of_ne_zero hq, if_neg ((roundAbs_lt_iff hfmt hq).mpr h).not_ge]
  split
  · rename_i hzero
    rw [floatRat?_signedZero, withSignOf_eq_zero.mpr hzero]
  · rfl

/-- What is rounded below the overflow bound: a number of the format nearest to `q`, the even one of two, and the datum that
stands for it. -/
structure RoundsTo (fmt : FloatFormat) (z : Bool) (q r : ℚ) : Prop where
  datum : floatRat? (roundTo fmt z q) = some r
  number : IsFormatNumber fmt r
  nearest : NearestEven fmt q r

theorem exists_roundsTo (hfmt : LegalFormat fmt) (h : |q| < overflowBound fmt) (z : Bool) : ∃ r, RoundsTo fmt z q r := by
  by_cases hq : q = 0
  · subst hq
    refine ⟨0, by rw [roundTo_zero, floatRat?_signedZero], isFormatNumber_zero hfmt, fun r' _ => ?_⟩
    simp only [sub_zero, abs_zero]
    exact ⟨abs_nonneg r', fun hne heq => absurd (abs_eq_zero.mp heq.symm) hne⟩
  · have hn := natAbs_num_pos hq
    have hnum : IsFormatNumber fmt (roundAbs fmt q) :=
      isFormatNumber_roundMagnitude hfmt hn q.den_pos ((roundAbs_lt_iff hfmt hq).mpr h)
    have hnear : NearestEven fmt |q| (roundAbs fmt q) := by
      rw [← natAbs_div_den]
      exact roundMagnitude_nearestEven hfmt hn q.den_pos
    refine ⟨_, floatRat?_roundTo hfmt hq h z, ?_, ?_⟩
    · unfold withSignOf
      split
      · exact isFormatNumber_neg hnum
      · exact hnum
    · unfold withSignOf
      split
      · rename_i hneg
        rw [abs_of_neg hneg] at hnear
        simpa only [neg_neg] using nearestEven_neg hnear
      · rename_i hnonneg
        rwa [abs_of_nonneg (not_lt.mp hnonneg)] at hnear

/-- A number that rounds to zero gives the zero of its own sign, an exact zero the one asked for. -/
theorem roundTo_eq_negZero (h : floatRat? (roundTo fmt z q) = some 0) :
    roundTo fmt z q = .negZero ↔ q < 0 ∨ q = 0 ∧ z = true := by
  by_cases hq : q = 0
  · subst hq
    rw [roundTo_zero, signedZero_eq_negZero]
    simp
  · rw [roundTo_of_ne_zero hq] at h ⊢
    split at h
    · cases h
    · rename_i hfin
      rw [if_neg hfin]
      split at h
      · rename_i hzero
        rw [if_pos hzero, signedZero_eq_negZero, decide_eq_true_iff]
        simp [hq]
      · rename_i hne
        exact absurd (withSignOf_eq_zero.mp (Option.some.inj h)) hne

/-- A number of the format is not changed by rounding its magnitude. -/
theorem roundAbs_of_isFormatNumber (hfmt : LegalFormat fmt) (hr : IsFormatNumber fmt r) (hr0 : r ≠ 0) :
    roundAbs fmt r = |r| := by
  obtain ⟨m, t, hmt, hm, hlo, -⟩ := hr
  have hval : ((r.num.natAbs : ℕ) : ℚ) / r.den = (m.natAbs : ℕ) * 2 ^ t := by
    rw [natAbs_div_den, hmt, abs_mul, abs_of_pos (two_zpow_pos t), Nat.cast_natAbs, Int.cast_abs]
  have hcount : m.natAbs ≤ 2 ^ fmt.precision := by
    zify
    exact hm.le
  obtain ⟨j, hj⟩ := whole_units fmt (natAbs_num_pos hr0) r.den_pos hlo hfmt.precision_pos hcount hval
  rw [roundAbs, roundMagnitude_exact fmt r.den_pos hj, natAbs_div_den]

theorem abs_lt_overflowBound (hfmt : LegalFormat fmt) (hr : IsFormatNumber fmt r) : |r| < overflowBound fmt := by
  by_cases hr0 : r = 0
  · rw [hr0, abs_zero]
    exact overflowBound_pos hfmt
  · rw [← roundAbs_lt_iff hfmt hr0, roundAbs_of_isFormatNumber hfmt hr hr0]
    exact abs_lt_of_isFormatNumber hr

/-- The finite data of a format's carrier are its numbers. -/
theorem roundTo_eq_self_iff (hfmt : LegalFormat fmt) : roundTo fmt false r = .lit r ↔ IsFormatNumber fmt r := by
  by_cases hr0 : r = 0
  · subst hr0
    exact iff_of_true (roundTo_zero fmt false) (isFormatNumber_zero hfmt)
  constructor
  · intro h
    by_cases hlt : |r| < overflowBound fmt
    · obtain ⟨r', hdatum, hnum, -⟩ := exists_roundsTo hfmt hlt false
      rw [h] at hdatum
      exact Option.some.inj hdatum ▸ hnum
    · rw [roundTo_of_ne_zero hr0, if_pos (not_lt.mp (mt (roundAbs_lt_iff hfmt hr0).mp hlt))] at h
      cases h
  · intro h
    have habs := roundAbs_of_isFormatNumber hfmt h hr0
    rw [roundTo_of_ne_zero hr0, habs, if_neg (abs_lt_of_isFormatNumber h).not_ge, if_neg (abs_ne_zero.mpr hr0),
      withSignOf_abs]

theorem inCarrier_lit_iff (hfmt : k.format? = some fmt) : inCarrier k (.lit r) = true ↔ IsFormatNumber fmt r := by
  rw [← roundTo_eq_self_iff (legalFormat hfmt), inCarrier, hfmt]
  exact decide_eq_true_iff

/-- Settles O31: the numbers that rounding keeps are those of the format, and what is rounded below the bound is nearest. -/
theorem roundingIsNearest : Obligations.RoundingIsNearest := by
  intro k fmt hfmt
  refine ⟨fun r => inCarrier_lit_iff hfmt, fun z q hq => ?_⟩
  obtain ⟨r, hdatum, hnum, hnear⟩ := exists_roundsTo (legalFormat hfmt) hq z
  exact ⟨r, hdatum, hnum, hnear, fun hr => roundTo_eq_negZero (hr ▸ hdatum)⟩

/-- Settles O32: a zero is below the bound; any other number is compared with it by its rounded magnitude. -/
theorem overflowToInfinity : Obligations.OverflowToInfinity := by
  intro k fmt z b q hk
  have hfmt := legalFormat hk
  change roundTo fmt z q = .inf b ↔ overflowBound fmt ≤ |q| ∧ (b = true ↔ q < 0)
  by_cases hlt : |q| < overflowBound fmt
  · obtain ⟨r, hdatum, -, -⟩ := exists_roundsTo hfmt hlt z
    refine iff_of_false (fun h => ?_) (fun h => hlt.not_ge h.1)
    rw [h] at hdatum
    cases hdatum
  · have hq : q ≠ 0 := by
      rintro rfl
      exact hlt (abs_zero.trans_lt (overflowBound_pos hfmt))
    rw [roundTo_of_ne_zero hq, if_pos (not_lt.mp (mt (roundAbs_lt_iff hfmt hq).mp hlt)), Value.inf.injEq,
      and_iff_right (not_lt.mp hlt)]
    cases b <;> simp

/-! ### The sine of a binary format -/

theorem clampUnit_mem (q : ℚ) : -1 ≤ clampUnit q ∧ clampUnit q ≤ 1 := by
  unfold clampUnit
  split_ifs <;> constructor <;> linarith

/-- Rounding a number in `[-1, 1]` stays there: the two ends are numbers of the format. -/
theorem roundsTo_mem_unit (hone : IsFormatNumber fmt 1) (hr : RoundsTo fmt z q r) (hlo : -1 ≤ q) (hhi : q ≤ 1) :
    -1 ≤ r ∧ r ≤ 1 := by
  have hupper := (le_abs_self _).trans (hr.nearest 1 hone).1
  have hlower := (neg_le_abs _).trans (hr.nearest (-1) (isFormatNumber_neg hone)).1
  rw [abs_of_nonneg (by linarith)] at hupper
  rw [abs_of_nonpos (by linarith)] at hlower
  constructor <;> linarith

/-- Settles O34: the platform's number is clamped, then rounded. -/
theorem floatSineInUnitRange : Obligations.FloatSineInUnitRange := by
  intro k x p hk hx
  obtain ⟨fmt, hfmt⟩ := exists_format hk
  have hone : IsFormatNumber fmt 1 := (inCarrier_lit_iff hfmt).mp (inCarrier_one k)
  obtain ⟨hlo, hhi⟩ := clampUnit_mem (Config.platformSin k x).1
  have hbound := (abs_le.mpr ⟨hlo, hhi⟩).trans_lt (abs_one.symm.trans_lt (abs_lt_overflowBound (legalFormat hfmt) hone))
  obtain ⟨r, hr⟩ := exists_roundsTo (legalFormat hfmt) hbound (Config.platformSin k x).2
  have hsin : numSin k x = roundTo fmt (Config.platformSin k x).2 (clampUnit (Config.platformSin k x).1) := by
    rw [numSin_format hfmt, floatSin, hx]
  rw [hsin]
  exact ⟨r, hr.datum, inCarrier_roundTo hfmt _ _, roundsTo_mem_unit hone hr hlo hhi⟩

/-! ### Silence -/

/-- With a zero amplitude the sample of real operands is zero, exactly (40_advance_datapath.md R74). -/
theorem sampleOf_zero_amp (p m : Exact) (com : BitVec 3) :
    sampleOf .exactReal (.fin p) (.fin m) Value.zero com = Value.zero := by
  simp only [sampleOf, numKMod, attenuation, numRecip, numOfRat_exactReal, numMul_exactReal, numAdd_exactReal,
    numPi_exactReal, numSin_exactReal, Value.zero, Value.lit, exactMul_zero_right, exactMul_zero_left]

/-- Mixes of zeros are zero in both modes. -/
theorem newMemoryOf_zero (mode : MixMode) (c d : Bool) :
    newMemoryOf .exactReal mode c d Value.zero Value.zero = Value.zero := by
  obtain ⟨h00, h10, h01, h11⟩ := exactMixTable mode (.rat 0) (.rat 0)
  cases c <;> cases d
  · exact h00
  · exact h01
  · exact h10
  · exact h11.trans (congrArg Value.fin (exactAdd_zero_left _))

/-- Everything the router can choose from is zero, but for the level, which is real. -/
structure WiresSilent (w : Wires) : Prop where
  num : w.num = .exactReal
  sample : w.sample = Value.zero
  newMemory : w.newMemory = Value.zero
  oldMem : w.oldMem = Value.zero
  tap0 : w.tap0 = Value.zero
  tap1 : w.tap1 = Value.zero
  level : w.level.isReal = true

theorem routeFbmix_silent {w : Wires} (hw : WiresSilent w) : routeFbmix w = Value.zero := by
  obtain ⟨l, hl⟩ := isReal_iff.mp hw.level
  simp only [routeFbmix, hw.num, hw.tap0, hw.tap1, hl, numRecip, numOfRat_exactReal, Value.zero, Value.lit,
    numAdd_exactReal, numMul_exactReal, exactAdd_zero_left, exactMul_zero_right, exactMul_zero_left]

theorem routeOf_silent {w : Wires} (hw : WiresSilent w) (instr : Instr) : routeOf instr w = Value.zero := by
  cases instr with
  | none => rfl
  | self => exact hw.sample
  | mem => exact hw.newMemory
  | pmem => exact hw.oldMem
  | fb => exact hw.tap0
  | fbmix => exact routeFbmix_silent hw

theorem setOps_silent (hs : Silent s) (ops : List HostOp) : Silent (setOps s ops) := { hs with }

theorem raise_silent (hs : Silent s) (r : FaultRecord) : Silent (raise s r) := by
  unfold raise
  split
  · exact { hs with }
  · exact hs

theorem latch_silent (hs : Silent s) (i : OpIndex) : Silent (latch s i) := by
  unfold latch
  split
  · exact { hs with }
  · exact hs

theorem resetEngine_silent (s : State) : Silent (resetEngine s) :=
  ⟨rfl, rfl, rfl, rfl, fun i => .inl (resetEngine_ports_getElem s i).2⟩

/-- A pair of equal taps does not change by a capture of the same value. -/
theorem capturedTaps_self (a : Bool) (v : Value) : capturedTaps a v v v = (v, v) := by
  cases a <;> rfl

/-- Steps 1 to 5 of a slot with a zero amplitude compute zeros from zeros. -/
theorem wiresOf_silent (hnum : s.num = .exactReal) (hv : ValuesInCarrier s) (hs : Silent s) (hf : f.isReal = true)
    (i : OpIndex) (com : BitVec 3) (instr : Instr) : WiresSilent (wiresOf s i f Value.zero com instr) := by
  have real {v : Value} (h : inCarrier s.num v = true) : v.isReal = true := by rwa [hnum] at h
  obtain ⟨p, hp⟩ := isReal_iff.mp (real (inCarrier_nextPhase (hv.phase i) (f := f) (by rwa [hnum])))
  have hsample : sampleOf s.num (nextPhase s.num s.phase[i] f) s.mod Value.zero com = Value.zero := by
    rw [hp, hs.mod, hnum]
    exact sampleOf_zero_amp p (.rat 0) com
  simp only [wiresOf, hsample, hs.mem, hs.feedback0, hs.feedback1, capturedTaps_self]
  exact ⟨hnum, rfl, by rw [hnum, newMemoryOf_zero], rfl, rfl, rfl, real hv.feedbackLevel⟩

/-- A slot with a zero amplitude leaves silence behind. -/
theorem performSlot_silent (hnum : s.num = .exactReal) (hv : ValuesInCarrier s) (hs : Silent s) (hf : f.isReal = true)
    (i : OpIndex) (com : BitVec 3) (instr : Instr) :
    Silent (performSlot s i f Value.zero com instr (routeOf instr)) := by
  have hw := wiresOf_silent ((latch_num s i).trans hnum) (latch_valuesInCarrier hv i) (latch_silent hs i) hf i com instr
  exact
    { mod := routeOf_silent hw instr
      mem := hw.newMemory
      feedback0 := hw.tap0
      feedback1 := hw.tap1
      ampIn := fun j => by simpa [performSlot] using hs.ampIn j }

/-- In silence the amplitude an enabled slot reads is zero. -/
theorem enabled_amp_zero (hs : Silent s) (h : Enabled s i f amp prior) : amp = Value.zero := by
  rcases hs.ampIn i with hnone | hzero
  · rw [h.ampDriven] at hnone
    cases hnone
  · exact Option.some.inj (h.ampDriven.symm.trans hzero)

theorem drive_silent (hs : Silent s) {fr am : Option Value} (ha : am = none ∨ am = some Value.zero) :
    Silent { s with freqIn := s.freqIn.set i fr, ampIn := s.ampIn.set i am } :=
  { hs with ampIn := forall_getElem_set (P := fun v => v = none ∨ v = some Value.zero) hs.ampIn ha i }

/-- Every move that drives no amplitude but zero keeps silence. -/
theorem performOp_silent {op : HostOp} (hnum : s.num = .exactReal) (hv : ValuesInCarrier s) (hs : Silent s)
    (hop : ∀ i fr am, op = .drive i fr am → am = none ∨ am = some Value.zero) (h : performOp op s = .next t) :
    Silent t := by
  rcases performOp_next h with rfl | ⟨-, r, rfl⟩ | ⟨i, f, amp, prior, instr, hen, -, -, rfl⟩ |
    ⟨i, fr, am, hdrive, -, -, rfl⟩ | ⟨a, -, rfl⟩ | ⟨v, -, -, -, rfl⟩ | ⟨v, -, -, rfl⟩ | ⟨-, -, rfl⟩
  · exact hs
  · exact raise_silent hs r
  · rw [enabled_amp_zero hs hen]
    exact performSlot_silent hnum hv hs (hen.freqReal hnum) i prior.com instr
  · exact drive_silent hs (hop i fr am hdrive)
  · exact { hs with }
  · exact { hs with }
  · exact { hs with }
  · exact resetEngine_silent s

/-- Settles O58: a step makes one move, and each move that drives no amplitude but zero keeps silence. -/
theorem silenceIsKept : Obligations.SilenceIsKept := by
  intro s t hnum hv hs hdrive h
  obtain ⟨op, rest, hops, hop⟩ := step_next h
  exact performOp_silent (s := setOps s rest) hnum (setOps_valuesInCarrier hv rest) (setOps_silent hs rest)
    (fun i fr am e => hdrive i fr am rest (e ▸ hops)) hop

/-! ### Frames -/

theorem run_two {u : State} (h1 : step s = .next u) (h2 : step u = .next t) : Host.Core.run core 2 s = .next t := by
  simp [Host.Core.run, core, h1, h2]

/-- The state with values at the two ports of index `i` and another list of moves to come. -/
def drivePorts (s : State) (i : OpIndex) (f amp : Value) (ops : List HostOp) : State :=
  { setOps s ops with freqIn := s.freqIn.set i (some f), ampIn := s.ampIn.set i (some amp) }

theorem filter_not_presentable {v : Value} (h : inCarrier k v = true) :
    (some v).filter (fun v => !presentable k v) = none := by
  simp [presentable_of_inCarrier h]

/-- Driving an index with elements of the carrier sets its two ports (42_host_interface.md R105). -/
theorem step_drive {rest : List HostOp} (hops : s.ops = .drive i (some f) (some amp) :: rest)
    (hf : inCarrier s.num f = true) (ha : inCarrier s.num amp = true) : step s = .next (drivePorts s i f amp rest) := by
  rw [step_cons hops, performOp, opDrive, setOps_num, filter_not_presentable hf, filter_not_presentable ha]
  rfl

/-- With a well-formed image, a state at an index whose ports are driven with elements of the carrier is enabled. -/
theorem exists_enabled (hfault : s.fault = .none) (hslot : s.slot.toNat = i.val) (hrom : wellFormedImage s.rom = true)
    (hf : s.freqIn[i] = some f) (ha : s.ampIn[i] = some amp) (cf : inCarrier s.num f = true)
    (ca : inCarrier s.num amp = true) : ∃ prior, Enabled s i f amp prior := by
  obtain ⟨w, prior, hw, hdec⟩ := wellFormedImage_lookup hrom (romAddress_lt (fetchRow s i) ((i.val : ℤ) - 1))
  refine ⟨prior, hfault, hslot, hf, ha, fun h => by rwa [h] at cf, fun h => by rwa [h] at ca, w, ?_, hdec⟩
  rwa [romAddress_prior] at hw

/-- An `ADVANCE` of an enabled index performs the descriptor of the row in use (40_advance_datapath.md R73). -/
theorem step_advance {rest : List HostOp} (hops : s.ops = .advance i.val :: rest) (hrom : wellFormedImage s.rom = true)
    (h : Enabled s i f amp prior) :
    ∃ instr m, romDescriptor s.rom (fetchRow s i) i.val = some instr ∧
      step s = .next (slotResult (setOps s rest) i f amp prior instr.a instr.c instr.d m) := by
  obtain ⟨w, instr, hw, hdec⟩ := wellFormedImage_lookup hrom (romAddress_lt (fetchRow s i) i.val)
  have hfetch : fetchAndExec (setOps s rest) i = exec instr (setOps s rest) := by
    have hword : descriptorWord (setOps s rest) i = some w := hw
    simp only [fetchAndExec, hword, hdec]
  have hen : Enabled (setOps s rest) i f amp prior := { h with }
  refine ⟨instr, routeOf instr (wiresOf (latch (setOps s rest) i) i f amp prior.com instr),
    romDescriptor_of_romRead hw hdec, ?_⟩
  rw [step_cons hops, performOp, opAdvance_atSlot hen.noFault hen.atSlot, hfetch,
    exec_eq_slotResult hen (wf_of_decode hdec)]

/-- Exactly the word of index `k` captures, of the row a frame begun in `s` uses. -/
def CapturesOnlyAt (s : State) (k : OpIndex) : Prop :=
  ∀ j : OpIndex, (romDescriptor s.rom s.algorithmIdPend (j.val : ℤ)).map Instr.a = some (decide (j = k))

/-- What a frame begun in `s` has come to after the slots of its first `n` indices. -/
structure FrameProgress (s : State) (n : ℕ) (t : State) : Prop where
  slot : t.slot.toNat = n % 6
  outValid : n = 6 → t.outValid = true
  fault : t.fault = .none
  latched : 0 < n → t.algorithmId = s.algorithmIdPend ∧ t.feedbackLevel = s.feedbackLevelPend
  algorithmIdPend : t.algorithmIdPend = s.algorithmIdPend
  feedbackLevelPend : t.feedbackLevelPend = s.feedbackLevelPend
  answers : t.answers = s.answers
  rom : t.rom = s.rom
  num : t.num = s.num
  newestTap : ∀ k, CapturesOnlyAt s k → n ≤ k.val → t.feedback0 = s.feedback0
  olderTap : ∀ k, CapturesOnlyAt s k → k.val < n → t.feedback1 = s.feedback0

theorem frameProgress_zero (hfault : s.fault = .none) (hslot : s.slot = 0) : FrameProgress s 0 s where
  slot := by rw [hslot]; rfl
  outValid h := by cases h
  fault := hfault
  latched h := absurd h (lt_irrefl 0)
  algorithmIdPend := rfl
  feedbackLevelPend := rfl
  answers := rfl
  rom := rfl
  num := rfl
  newestTap _ _ _ := rfl
  olderTap _ _ h := absurd h (Nat.not_lt_zero _)

/-- All slots of a frame use the row that was pending when it began (20_memory.md R41). -/
theorem frameProgress_row {u : State} (h : FrameProgress s i.val u) : fetchRow u i = s.algorithmIdPend := by
  by_cases hi : i = 0
  · exact (if_pos hi).trans h.algorithmIdPend
  · exact (if_neg hi).trans (h.latched (Fin.pos_iff_ne_zero.mpr hi)).1

/-- The slot of index `i` takes the frame one index on. -/
theorem frameProgress_slotResult {u : State} {m : Value} (h : FrameProgress s i.val u)
    (hdesc : romDescriptor s.rom s.algorithmIdPend i.val = some instr) :
    FrameProgress s (i.val + 1) (slotResult u i f amp prior instr.a instr.c instr.d m) where
  slot := nextSlot_toNat i
  outValid hi := decide_eq_true (Nat.succ.inj hi)
  fault := h.fault
  latched _ := by
    by_cases hi : i = 0
    · exact ⟨(if_pos hi).trans h.algorithmIdPend, (if_pos hi).trans h.feedbackLevelPend⟩
    · obtain ⟨hid, hlevel⟩ := h.latched (Fin.pos_iff_ne_zero.mpr hi)
      exact ⟨(if_neg hi).trans hid, (if_neg hi).trans hlevel⟩
  algorithmIdPend := h.algorithmIdPend
  feedbackLevelPend := h.feedbackLevelPend
  answers := h.answers
  rom := h.rom
  num := h.num
  newestTap k hk hle := by
    have ha : instr.a = decide (i = k) := by simpa [hdesc] using hk i
    have hne : i ≠ k := by
      rintro rfl
      omega
    exact (if_neg (by simp [ha, hne])).trans (h.newestTap k hk (by omega))
  olderTap k hk hlt := by
    have ha : instr.a = decide (i = k) := by simpa [hdesc] using hk i
    by_cases hik : i = k
    · exact (if_pos (by simp [ha, hik])).trans (h.newestTap k hk (by rw [hik]))
    · have : i.val ≠ k.val := fun e => hik (Fin.ext e)
      exact (if_neg (by simp [ha, hik])).trans (h.olderTap k hk (by omega))

/-- The two moves of an index, driving it and advancing it, take the frame one index on. -/
theorem run_slotOps {u : State} {freq am : Vector Value 6} {rest : List HostOp} (hrom : wellFormedImage s.rom = true)
    (hin : FrameInputs s.num freq am) (h : FrameProgress s i.val u) (hops : u.ops = slotOps freq am i ++ rest) :
    ∃ t, Host.Core.run core 2 u = .next t ∧ FrameProgress s (i.val + 1) t ∧ t.ops = rest := by
  obtain ⟨cf, ca⟩ := hin i
  rw [← h.num] at cf ca
  have hdrive := step_drive (rest := .advance i.val :: rest) hops cf ca
  have hdriven : FrameProgress s i.val (drivePorts u i freq[i] am[i] (.advance i.val :: rest)) := { h with }
  obtain ⟨prior, hen⟩ := exists_enabled hdriven.fault (hdriven.slot.trans (Nat.mod_eq_of_lt i.isLt)) (hdriven.rom ▸ hrom)
    (Vector.getElem_set_self i.isLt) (Vector.getElem_set_self i.isLt) cf ca
  obtain ⟨instr, m, hdesc, hadvance⟩ := step_advance (rest := rest) rfl (hdriven.rom ▸ hrom) hen
  rw [frameProgress_row hdriven, hdriven.rom] at hdesc
  exact ⟨_, run_two hdrive hadvance,
    frameProgress_slotResult (u := setOps (drivePorts u i freq[i] am[i] _) rest) { hdriven with } hdesc, rfl⟩

/-- The twelve moves of a frame take it through its six indices. -/
theorem run_frameOps {freq am : Vector Value 6} {rest : List HostOp} (hfault : s.fault = .none) (hslot : s.slot = 0)
    (hrom : wellFormedImage s.rom = true) (hin : FrameInputs s.num freq am) (hops : s.ops = frameOps freq am ++ rest) :
    ∃ t, Host.Core.run core 12 s = .next t ∧ FrameProgress s 6 t ∧ t.ops = rest := by
  simp only [frameOps, List.append_assoc] at hops
  obtain ⟨s1, run1, prog1, ops1⟩ := run_slotOps (i := 0) hrom hin (frameProgress_zero hfault hslot) hops
  obtain ⟨s2, run2, prog2, ops2⟩ := run_slotOps (i := 1) hrom hin prog1 ops1
  obtain ⟨s3, run3, prog3, ops3⟩ := run_slotOps (i := 2) hrom hin prog2 ops2
  obtain ⟨s4, run4, prog4, ops4⟩ := run_slotOps (i := 3) hrom hin prog3 ops3
  obtain ⟨s5, run5, prog5, ops5⟩ := run_slotOps (i := 4) hrom hin prog4 ops4
  obtain ⟨s6, run6, prog6, ops6⟩ := run_slotOps (i := 5) hrom hin prog5 ops5
  refine ⟨s6, ?_, prog6, ops6⟩
  calc Host.Core.run core (2 + 10) s = Host.Core.run core (2 + 8) s1 := run_add core 2 10 run1
    _ = Host.Core.run core (2 + 6) s2 := run_add core 2 8 run2
    _ = Host.Core.run core (2 + 4) s3 := run_add core 2 6 run3
    _ = Host.Core.run core (2 + 2) s4 := run_add core 2 4 run4
    _ = Host.Core.run core 2 s5 := run_add core 2 2 run5
    _ = .next s6 := run6

/-- Settles O59: the six indices of the frame leave `slot` at 0 with a valid output. -/
theorem frameCompletes : Obligations.FrameCompletes := by
  intro s freq am rest hfault hslot hrom hin hops
  obtain ⟨t, hrun, h, hrest⟩ := run_frameOps hfault hslot hrom hin hops
  obtain ⟨hid, hlevel⟩ := h.latched (by decide)
  exact ⟨t, hrun, BitVec.eq_of_toNat_eq h.slot, h.outValid rfl, h.fault, hrest, hid, hlevel, h.algorithmIdPend,
    h.feedbackLevelPend, h.answers, h.rom, h.num⟩

/-- Settles O60: the second frame uses the same row and image as the first, and its one capture shifts the tap the first
left. -/
theorem feedbackShiftsOncePerFrame : Obligations.FeedbackShiftsOncePerFrame := by
  intro s freq1 amp1 freq2 amp2 rest k hfault hslot hrom hin1 hin2 hops hcapture
  obtain ⟨t1, hrun1, h1, hrest1⟩ := run_frameOps hfault hslot hrom hin1 hops
  obtain ⟨t2, hrun2, h2, -⟩ := run_frameOps h1.fault (BitVec.eq_of_toNat_eq h1.slot) (h1.rom ▸ hrom) (h1.num ▸ hin2) hrest1
  have hcapture1 : CapturesOnlyAt t1 k := by
    unfold CapturesOnlyAt
    rw [h1.rom, h1.algorithmIdPend]
    exact hcapture
  exact ⟨t1, t2, hrun1, hrun2, h2.olderTap k hcapture1 k.isLt⟩

end Sys2Proof.Proofs

/-! The statements of 41_selector_instructions.md: the word of each of the six instructions and the value it writes to `mod`,
and the blend of `FBMIX` over the real numbers. -/

namespace Sys2Proof.Proofs

open Sys2Proof Sys2Proof.Machine Sys2Proof.Claims Sys2Proof.Laws

variable {s : State} {i : OpIndex} {f amp : Value} {instr prior : Instr}

/-! ### The word of an instruction -/

/-- Appended bits are the low digits of the number (30_encoding.md R50 writes the most significant field first). -/
theorem toNat_append_eq_add {n m : ℕ} (x : BitVec n) (y : BitVec m) : (x ++ y).toNat = 2 ^ m * x.toNat + y.toNat := by
  rw [BitVec.toNat_append, ← Nat.shiftLeft_add_eq_or_of_lt y.isLt, Nat.shiftLeft_eq, Nat.mul_comm]

/-- 30_encoding.md R50: the number of a word, from its fields. -/
theorem encode_toNat (instr : Instr) :
    (encode instr).toNat = 64 * instr.sel.toNat + 32 * instr.a.toNat + 16 * instr.c.toNat + 8 * instr.d.toNat +
      instr.com.toNat := by
  simp only [encode, toNat_append_eq_add, BitVec.toNat_ofBool]
  omega

/-! ### The value each instruction writes to `mod` -/

/-- What the router of a slot can choose from, by the formulas of 40_advance_datapath.md R71, R74, R76, R77. -/
def slotWires (s : State) (i : OpIndex) (f amp : Value) (prior instr : Instr) : Wires where
  num := s.num
  sample := sampleAt s i f amp prior
  newMemory := mixOf s instr.c instr.d (sampleAt s i f amp prior)
  oldMem := s.mem
  tap0 := tap0Of s instr.a (sampleAt s i f amp prior)
  tap1 := tap1Of s instr.a
  level := levelOf s i

theorem wiresOf_latch_eq_slotWires (s : State) (i : OpIndex) (f amp : Value) (prior instr : Instr) :
    wiresOf (latch s i) i f amp prior.com instr = slotWires s i f amp prior instr :=
  wiresOf_latch s i f amp prior instr

/-- A legal descriptor whose slot is enabled completes with the state the formulas give, `mod` among it as its router chooses
(41_selector_instructions.md R96). -/
theorem exec_eq_slotResult_of_route {m : Value} (hcom : instr.com.toNat ≤ 5) (h : Enabled s i f amp prior)
    (hroute : routeOf instr (slotWires s i f amp prior instr) = m) :
    exec instr s = .next (slotResult s i f amp prior instr.a instr.c instr.d m) := by
  rw [exec_eq_slotResult h (wf_of_com_le hcom), wiresOf_latch_eq_slotWires, hroute]

/-- Settles O13: the router of `NONE` gives zero. -/
theorem noneWritesZeroToMod : Obligations.NoneWritesZeroToMod := fun _ _ _ _ hcom =>
  ⟨encode_toNat _, fun _ _ _ _ _ h => exec_eq_slotResult_of_route hcom h rfl⟩

/-- Settles O14: the router of `SELF` passes the sample. -/
theorem selfWritesSampleToMod : Obligations.SelfWritesSampleToMod := fun _ _ _ _ hcom =>
  ⟨encode_toNat _, fun _ _ _ _ _ h => exec_eq_slotResult_of_route hcom h rfl⟩

/-- Settles O15: the router of `MEM` passes the new memory, which is committed to `mem` as well. -/
theorem memWritesNewMemoryToMod : Obligations.MemWritesNewMemoryToMod := fun _ _ _ _ hcom =>
  ⟨encode_toNat _, fun _ _ _ _ _ h => exec_eq_slotResult_of_route hcom h rfl⟩

/-- Settles O16: the router of `PMEM` passes the memory that stood before the commit. -/
theorem pmemWritesOldMemToMod : Obligations.PmemWritesOldMemToMod := fun _ _ _ _ hcom =>
  ⟨encode_toNat _, fun _ _ _ _ _ h => exec_eq_slotResult_of_route hcom h rfl⟩

/-- Settles O17: the router of `FB` passes the newest tap, which is the sample of the slot if it captures. -/
theorem fbWritesNewestTapToMod : Obligations.FbWritesNewestTapToMod := fun _ _ _ _ hcom =>
  ⟨encode_toNat _, fun _ _ _ _ _ h => exec_eq_slotResult_of_route hcom h rfl⟩

/-- Settles O18: the router of `FBMIX` blends the two taps after the capture with the level after the latch. -/
theorem fbmixWritesBlendToMod : Obligations.FbmixWritesBlendToMod := fun _ _ _ _ hcom =>
  ⟨encode_toNat _, fun _ _ _ _ _ h => exec_eq_slotResult_of_route hcom h rfl⟩

/-! ### The blend of `FBMIX` over the real numbers -/

/-- In a state with every value in the carrier, so is everything the router of an enabled slot can choose from. -/
theorem slotWires_inCarrier (hv : ValuesInCarrier s) (h : Enabled s i f amp prior) (instr : Instr) :
    WiresInCarrier (slotWires s i f amp prior instr) := by
  obtain ⟨hf, ha⟩ := enabled_inputs_inCarrier hv h
  rw [← latch_num s i] at hf ha
  rw [← wiresOf_latch_eq_slotWires]
  exact wiresOf_inCarrier (latch_valuesInCarrier hv i) hf ha prior.com instr

/-- On real operands the blend is the expression of 41_selector_instructions.md R95, in its order of evaluation. -/
theorem routeFbmix_exactReal {w : Wires} (hnum : w.num = .exactReal) (hw : WiresInCarrier w) :
    ∃ u0 u1 l, w.tap0 = .fin u0 ∧ w.tap1 = .fin u1 ∧ w.level = .fin l ∧
      routeFbmix w = .fin (exactMul (exactMul l (exactAdd u0 u1)) (.rat (1 / 6))) := by
  have real {v : Value} (h : inCarrier w.num v = true) : ∃ x, v = .fin x := isReal_iff.mp (by rwa [hnum] at h)
  obtain ⟨u0, hu0⟩ := real hw.tap0
  obtain ⟨u1, hu1⟩ := real hw.tap1
  obtain ⟨l, hl⟩ := real hw.level
  refine ⟨u0, u1, l, hu0, hu1, hl, ?_⟩
  simp only [routeFbmix, hnum, hu0, hu1, hl, numRecip, numAdd_exactReal, numMul_exactReal, numOfRat_exactReal,
    Nat.cast_ofNat]

/-- Settles O19: a zero level is a factor of the blend. -/
theorem zeroLevelSilencesFbmix : Obligations.ZeroLevelSilencesFbmix := by
  intro a c d com s i f amp prior hcom h hnum hv hlevel
  obtain ⟨u0, u1, l, -, -, hl, hroute⟩ := routeFbmix_exactReal hnum (slotWires_inCarrier hv h (.fbmix a c d com))
  obtain rfl : Exact.rat 0 = l := Value.fin.inj (hlevel.symm.trans hl)
  rw [exactMul_zero_left, exactMul_zero_left] at hroute
  exact ⟨_, exec_eq_slotResult_of_route hcom h hroute, rfl⟩

/-- Settles O25: the next state holds the taps and the level of the blend, and exact operations denote the real ones. -/
theorem exactFbmixDenotesBlend : Obligations.ExactFbmixDenotesBlend := by
  intro a c d com s i f amp prior hcom hnum hv h
  obtain ⟨u0, u1, l, hu0, hu1, hl, hroute⟩ := routeFbmix_exactReal hnum (slotWires_inCarrier hv h (.fbmix a c d com))
  refine ⟨_, u0, u1, l, _, exec_eq_slotResult_of_route hcom h hroute, hu0, hu1, hl, rfl, ?_⟩
  rw [denote_exactMul, denote_exactMul, denote_exactAdd, denote_rat]
  norm_num

end Sys2Proof.Proofs

/-! The statements of 42_host_interface.md: what each move of an agent does, and which instruction an `ADVANCE` of the index in
`slot` runs. -/

namespace Sys2Proof.Proofs

open Sys2Proof Sys2Proof.Machine Sys2Proof.Claims Sys2Proof.Laws

variable {s : State} {i : OpIndex} {f amp : Value} {instr : Instr}

/-! ### The moves beside `ADVANCE` -/

/-- Settles O44: with no fault recorded, `out_valid` alone decides whether the read is answered. -/
theorem rdoutGivesMem : Obligations.RdoutGivesMem := by
  intro s rest hops hfault
  rw [step_cons hops, performOp, opRdout, setOps_fault, setOps_outValid]
  constructor
  · intro hvalid
    rw [if_pos ⟨hfault, hvalid⟩]
    rfl
  · intro hvalid
    rw [if_neg (by simp [hvalid])]
    rfl

theorem opWralg_inRange {v : ℤ} (hlo : 0 ≤ v) (hhi : v < 32) (s : State) :
    opWralg v s = .next { s with algorithmIdPend := BitVec.ofInt 5 v } :=
  if_pos ⟨hlo, hhi⟩

theorem opWralg_outOfRange {v : ℤ} (hv : v < 0 ∨ 32 ≤ v) (s : State) : opWralg v s = .next (raise s (.algRange v)) := by
  refine if_neg fun ⟨hlo, hhi⟩ => ?_
  have hhi : v < 32 := hhi
  omega

/-- A 5-bit register holds every id in `[0,32)` (10_state.md R18). -/
theorem toNat_ofInt_five {v : ℤ} (hlo : 0 ≤ v) (hhi : v < 32) : ((BitVec.ofInt 5 v).toNat : ℤ) = v := by
  rw [BitVec.toNat_ofInt]
  omega

/-- Settles O45: an id in range fits the register; any other is raised, which writes the record alone. -/
theorem wralgWritesPendingId : Obligations.WralgWritesPendingId := by
  intro s rest v hops
  rw [step_cons hops, performOp]
  constructor
  · intro hlo hhi
    exact ⟨BitVec.ofInt 5 v, toNat_ofInt_five hlo hhi, opWralg_inRange hlo hhi _⟩
  · intro hv hfault
    rw [opWralg_outOfRange hv, raise_of_none (setOps s rest) _ hfault]
    rfl

/-- Settles O46: an element of the carrier passes the one check of `WRFBL`, whatever its size. -/
theorem wrfblWritesPendingLevel : Obligations.WrfblWritesPendingLevel := by
  intro s rest v hops hv
  rw [step_cons hops, performOp]
  exact if_pos hv

theorem opDrive_presentable (hf : presentable s.num f = true) (ha : presentable s.num amp = true) :
    opDrive i (some f) (some amp) s =
      .next { s with freqIn := s.freqIn.set i (some f), ampIn := s.ampIn.set i (some amp) } := by
  simp [opDrive, Option.filter, hf, ha]

/-- Settles O48: two presentable values pass the check of the drive. -/
theorem driveSetsOnePortPair : Obligations.DriveSetsOnePortPair := by
  intro s rest i f amp hops hf ha
  rw [step_cons hops, performOp]
  exact opDrive_presentable hf ha

/-! ### The fetch -/

theorem descriptorWord_eq_wordAt (s : State) (i : OpIndex) : descriptorWord s i = wordAt s (rowOf s i) i :=
  descriptorWord_eq s i

theorem fetchAndExec_of_decode {w : RomWord} (hw : descriptorWord s i = some w) (hdec : decode w = .ok instr) :
    fetchAndExec s i = exec instr s := by
  simp only [fetchAndExec, hw, hdec]

/-- `ADVANCE` of the index in `slot` with no fault recorded fetches there (42_host_interface.md R103). -/
theorem step_advance_atSlot {rest : List HostOp} (hops : s.ops = .advance i.val :: rest) (hfault : s.fault = .none)
    (hslot : s.slot.toNat = i.val) : step s = fetchAndExec (setOps s rest) i := by
  rw [step_cons hops, performOp]
  exact opAdvance_atSlot (s := setOps s rest) hfault hslot

/-- Settles O52: the fetch reads the word at `(row, slot)` and runs the instruction the decoder finds in it. -/
theorem stepRunsDecodedInstruction : Obligations.StepRunsDecodedInstruction := by
  intro s i rest w instr hops hfault hslot hw hdec
  rw [step_advance_atSlot hops hfault hslot]
  exact fetchAndExec_of_decode (s := setOps s rest) ((descriptorWord_eq_wordAt s i).trans hw) hdec

/-! ### Undriven ports -/

theorem advanceWith_undriven {route : Wires → Value} (hfault : s.fault = .none) (hslot : s.slot.toNat = i.val)
    (h : s.freqIn[i] = none ∨ s.ampIn[i] = none) : advanceWith instr route s = .fault (.inputUndriven i) := by
  simp only [advanceWith, if_pos hfault, slotIndex?_eq_some.mpr hslot]
  exact withInputs_undriven h

/-- An undriven port stops the fetch whatever stands at its address: the ports are read before the word is judged
(60_exceptions.md R129). -/
theorem fetchAndExec_undriven (hfault : s.fault = .none) (hslot : s.slot.toNat = i.val)
    (h : s.freqIn[i] = none ∨ s.ampIn[i] = none) : fetchAndExec s i = .fault (.inputUndriven i) := by
  unfold fetchAndExec
  split
  · exact withInputs_undriven h
  · split
    · rw [exec_eq_advanceWith]
      exact advanceWith_undriven hfault hslot h
    · exact withInputs_undriven h

/-- Settles O50: the step is the fetch, which an undriven port stops. -/
theorem undrivenPortIsStuck : Obligations.UndrivenPortIsStuck := by
  intro s i rest w hops hfault hslot hundriven _
  rw [step_advance_atSlot hops hfault hslot]
  exact fetchAndExec_undriven (s := setOps s rest) hfault hslot hundriven

/-! ### Idleness -/

theorem withInputs_ne_idle {body : Value → Value → StepResult} (hbody : ∀ f amp, body f amp ≠ .fault .idle) :
    withInputs s i body ≠ .fault .idle := by
  rcases withInputs_cases s i body with ⟨f, amp, -, -, -, -, e⟩ | ⟨p, v, e⟩ | e
  · rw [e]
    exact hbody f amp
  · simp [e]
  · simp [e]

theorem withPriorCom_ne_idle {body : BitVec 3 → StepResult} (hbody : ∀ com, body com ≠ .fault .idle) :
    withPriorCom s i body ≠ .fault .idle := by
  unfold withPriorCom
  split
  · simp
  · split
    · exact hbody _
    · simp

theorem advanceWith_ne_idle (instr : Instr) (route : Wires → Value) (s : State) :
    advanceWith instr route s ≠ .fault .idle := by
  unfold advanceWith
  split
  · split
    · simp
    · refine withInputs_ne_idle fun f amp => ?_
      split
      · exact withPriorCom_ne_idle fun com => by simp
      · simp
  · simp

theorem fetchAndExec_ne_idle (s : State) (i : OpIndex) : fetchAndExec s i ≠ .fault .idle := by
  unfold fetchAndExec
  split
  · exact withInputs_ne_idle fun _ _ => by simp
  · split
    · rw [exec_eq_advanceWith]
      exact advanceWith_ne_idle _ _ s
    · exact withInputs_ne_idle fun _ _ => by simp

theorem opAdvance_ne_idle (n : ℤ) (s : State) : opAdvance n s ≠ .fault .idle := by
  unfold opAdvance
  split
  · split
    · simp
    · split
      · exact fetchAndExec_ne_idle s _
      · simp
  · simp

/-- No move of an agent stops as idle: only the empty list does. -/
theorem performOp_ne_idle (op : HostOp) (s : State) : performOp op s ≠ .fault .idle := by
  cases op with
  | drive i fr am => simp only [performOp, opDrive]; split <;> simp
  | advance n => exact opAdvance_ne_idle n s
  | rdout => simp only [performOp, opRdout]; split <;> simp
  | wralg v => simp only [performOp, opWralg]; split <;> simp
  | wrfbl v =>
    simp only [performOp, opWrfbl]
    split
    · simp
    · split <;> simp
  | reset => simp only [performOp, opReset]; split <;> simp

/-- Settles O51: with a move requested the step is that move, and no move stops as idle. -/
theorem noMoveIsIdle : Obligations.NoMoveIsIdle := by
  intro s
  constructor
  · intro h
    cases hops : s.ops with
    | nil => rfl
    | cons op rest => exact absurd ((step_cons hops).symm.trans h) (performOp_ne_idle op _)
  · intro hops
    rw [step, stepOp, hops]

/-! ### The fitted word -/

/-- The state with `word` fitted where index `i` fetches, a legal prior word, both ports of `i` driven, and `ADVANCE i`
requested next (log 20). -/
def fitAt (s : State) (i : OpIndex) (word : RomWord) : State :=
  { s with
    rom := romStoreIfIllegal (romStore s.rom (romAddress (fetchRow s i) i.val) (some word))
      (romAddress (fetchRow s i) ((i.val : ℤ) - 1)) blankWord
    freqIn := s.freqIn.set i (drivenOrZero s.freqIn[i])
    ampIn := s.ampIn.set i (drivenOrZero s.ampIn[i])
    ops := .advance i.val :: s.ops }

theorem withFetchWord_eq_fitAt (hslot : s.slot.toNat = i.val) (nbits w : ℕ) :
    s.withFetchWord nbits w = fitAt s i (BitVec.ofNat 9 (w % 2 ^ nbits)) := by
  simp only [State.withFetchWord, fitFetchWord, slotIndex?_eq_some.mpr hslot, fitAt]

/-- A word and its prior word stand at two addresses of one row (20_memory.md R33). -/
theorem romAddress_ne_prior (alg : BitVec 5) (i : OpIndex) : romAddress alg i.val ≠ romAddress alg ((i.val : ℤ) - 1) := by
  rw [romAddress_index, romAddress_prior]
  omega

/-- The slot fetches the fitted word: the one fitted as its prior word stands elsewhere. -/
theorem descriptorWord_fitAt (hrom : Memory.wf s.rom = true) (i : OpIndex) (word : RomWord) :
    descriptorWord (fitAt s i word) i = some word :=
  (romLookup_romStoreIfIllegal_other (romAddress_ne_prior (fetchRow s i) i)).trans
    (romLookup_romStore_self hrom (romAddress_lt (fetchRow s i) i.val) _)

/-- The prior word of the slot is legal, whatever stood there before. -/
theorem priorWord_fitAt (hrom : Memory.wf s.rom = true) (i : OpIndex) (word : RomWord) :
    ∃ w prior, priorWord (fitAt s i word) i = some w ∧ decode w = .ok prior := by
  obtain ⟨w, hw, hlegal⟩ := romLookup_romStoreIfIllegal_self
    (wf_romStore hrom (romAddress (fetchRow s i) i.val) (some word)) (romAddress_lt (fetchRow s i) ((i.val : ℤ) - 1))
  obtain ⟨prior, hdec⟩ := (legalWord_iff w).mp hlegal
  exact ⟨w, prior, hw, hdec⟩

/-- Over undriven ports the fitted slot is enabled with two zeros, whatever `NUM` is. -/
theorem exists_enabled_fitAt (hfault : s.fault = .none) (hslot : s.slot.toNat = i.val) (hrom : Memory.wf s.rom = true)
    (hf : s.freqIn[i] = none) (ha : s.ampIn[i] = none) (word : RomWord) :
    ∃ prior, Enabled (fitAt s i word) i Value.zero Value.zero prior := by
  obtain ⟨w, prior, hw, hdec⟩ := priorWord_fitAt hrom i word
  rw [priorWord_eq] at hw
  exact ⟨prior, hfault, hslot, by simp [fitAt, hf, drivenOrZero], by simp [fitAt, ha, drivenOrZero], fun _ => rfl,
    fun _ => rfl, w, hw, hdec⟩

theorem step_fitAt {word : RomWord} (hfault : s.fault = .none) (hslot : s.slot.toNat = i.val)
    (hrom : Memory.wf s.rom = true) (hdec : decode word = .ok instr) :
    step (fitAt s i word) = exec instr (setOps (fitAt s i word) s.ops) :=
  stepRunsDecodedInstruction (fitAt s i word) i s.ops word instr rfl hfault hslot
    ((descriptorWord_eq_wordAt _ i).symm.trans (descriptorWord_fitAt hrom i word)) hdec

theorem decode_of_decodeTableWord {nbits w : ℕ} (h : decodeTableWord nbits w = some instr) :
    decode (BitVec.ofNat 9 (w % 2 ^ nbits)) = .ok instr := by
  unfold decodeTableWord at h
  split at h
  · split at h <;> cases h
    assumption
  · cases h

/-- Settles O53: the fitted word is the one fetched, and after reset, where no port is driven, its slot is enabled. -/
theorem fittedWordRunsNext : Obligations.FittedWordRunsNext := by
  intro s nbits w instr hword hfault hslot hrom
  have hdec := decode_of_decodeTableWord hword
  constructor
  · rw [withFetchWord_eq_fitAt (i := ⟨s.slot.toNat, hslot⟩) rfl]
    exact step_fitAt hfault rfl hrom hdec
  · obtain ⟨hf, ha⟩ := resetEngine_ports_getElem State.reset 0
    obtain ⟨prior, hen⟩ := exists_enabled_fitAt (s := State.reset) (i := 0) rfl rfl wf_reset hf ha
      (BitVec.ofNat 9 (w % 2 ^ nbits))
    rw [withFetchWord_eq_fitAt (i := 0) rfl, step_fitAt rfl rfl wf_reset hdec]
    exact ⟨_, exec_enabled { hen with } (wf_of_decode hdec)⟩

end Sys2Proof.Proofs

/-! The statements of 60_exceptions.md: the codes of the record, what each fault records and that it writes nothing else, the
order of the checks of an `ADVANCE`, and what the moves do while a fault is recorded. -/

namespace Sys2Proof.Proofs

open Sys2Proof Sys2Proof.Machine Sys2Proof.Claims Sys2Proof.Laws

variable {s t : State} {i : OpIndex} {f amp v : Value} {instr : Instr} {w : RomWord} {r : FaultRecord}

/-! ### The record -/

/-- Settles O37: the five codes are the table of 60_exceptions.md R121. -/
theorem faultCodes : Obligations.FaultCodes :=
  ⟨rfl, fun _ _ => rfl, fun _ => rfl, fun _ _ _ => rfl, fun _ _ => rfl⟩

/-- A move that raises changes the list of moves and, with no fault recorded, the record (60_exceptions.md R125). -/
theorem raise_setOps_of_none (hfault : s.fault = .none) (rest : List HostOp) (r : FaultRecord) :
    raise (setOps s rest) r = { s with ops := rest, fault := r } :=
  raise_of_none (setOps s rest) r hfault

/-! ### The order of the slots -/

/-- An operand that is not the index in `slot` is raised: 6 and 7 in `slot` are no index (60_exceptions.md R122, log 19). -/
theorem opAdvance_wrongIndex {n : ℤ} (hfault : s.fault = .none) (hn : n < 0 ∨ 5 < n ∨ n ≠ (s.slot.toNat : ℤ)) :
    opAdvance n s = .next (raise s (.slotOrder n s.slot)) := by
  rw [opAdvance, if_pos hfault]
  cases hslot : slotIndex? s.slot with
  | none => rfl
  | some k =>
    have hk := slotIndex?_eq_some.mp hslot
    have hne : n ≠ (k.val : ℤ) := by omega
    exact if_neg hne

/-- Settles O38: the one check that comes before the fetch. -/
theorem slotOrderRaised : Obligations.SlotOrderRaised := by
  intro s n rest hops hfault hn
  rw [step_cons hops, performOp, opAdvance_wrongIndex (s := setOps s rest) hfault hn, raise_setOps_of_none hfault, setOps_slot]

/-! ### The order of the checks of a slot -/

/-- What a slot whose inputs are admitted does: it judges the descriptor word, then the prior word, then takes effect
(60_exceptions.md R129). -/
def judgeWords (s : State) (i : OpIndex) (f amp : Value) : StepResult :=
  match descriptorWord s i with
  | none => .fault (.romAbsent (romAddress (fetchRow s i) i.val))
  | some w =>
    match decode w with
    | .ok instr => withPriorCom s i fun com => .next (performSlot s i f amp com instr (routeOf instr))
    | .error _ => .next (raise s (.romReserved (fetchRow s i) i w))

theorem judgeWords_of_absent (hw : descriptorWord s i = none) :
    judgeWords s i = fun _ _ => .fault (.romAbsent (romAddress (fetchRow s i) i.val)) := by
  funext f amp
  simp only [judgeWords, hw]

theorem judgeWords_of_error {e : DecodeError} (hw : descriptorWord s i = some w) (hdec : decode w = .error e) :
    judgeWords s i = fun _ _ => .next (raise s (.romReserved (fetchRow s i) i w)) := by
  funext f amp
  simp only [judgeWords, hw, hdec]

theorem judgeWords_of_ok (hw : descriptorWord s i = some w) (hdec : decode w = .ok instr) :
    judgeWords s i =
      fun f amp => withPriorCom s i fun com => .next (performSlot s i f amp com instr (routeOf instr)) := by
  funext f amp
  simp only [judgeWords, hw, hdec]

/-- The inputs are checked before any word, whatever stands in the ROM (60_exceptions.md R129). -/
theorem fetchAndExec_eq_withInputs (hfault : s.fault = .none) (hslot : s.slot.toNat = i.val) :
    fetchAndExec s i = withInputs s i (judgeWords s i) := by
  cases hw : descriptorWord s i with
  | none => simp only [fetchAndExec, hw, judgeWords_of_absent hw]
  | some w =>
    cases hdec : decode w with
    | error e => simp only [fetchAndExec, hw, hdec, judgeWords_of_error hw hdec]
    | ok instr =>
      rw [fetchAndExec_of_decode hw hdec, exec_eq_advanceWith, judgeWords_of_ok hw hdec]
      simp only [advanceWith, if_pos hfault, slotIndex?_eq_some.mpr hslot, wf_of_decode hdec, if_true]

/-- `ADVANCE` of the index in `slot` checks the inputs, then judges the words. -/
theorem step_advance_eq_withInputs {rest : List HostOp} (hops : s.ops = .advance i.val :: rest) (hfault : s.fault = .none)
    (hslot : s.slot.toNat = i.val) : step s = withInputs (setOps s rest) i (judgeWords (setOps s rest) i) := by
  rw [step_advance_atSlot hops hfault hslot]
  exact fetchAndExec_eq_withInputs (s := setOps s rest) hfault hslot

/-! ### Reserved words -/

theorem exists_decode_error (h : legalWord w = false) : ∃ e, decode w = .error e := by
  cases hdec : decode w with
  | error e => exact ⟨e, rfl⟩
  | ok instr => exact absurd ((legalWord_iff w).mpr ⟨instr, hdec⟩) (by simp [h])

/-- The prior word stands at index `i + 5` modulo 6 of the row in use (20_memory.md R33). -/
theorem priorWord_eq_wordAt (s : State) (i : OpIndex) : priorWord s i = wordAt s (rowOf s i) (i + 5) :=
  priorWord_eq s i

theorem withPriorCom_reserved {body : BitVec 3 → StepResult} (hw : priorWord s i = some w) (h : legalWord w = false) :
    withPriorCom s i body = .next (raise s (.romReserved (fetchRow s i) (priorIndex i) w)) := by
  obtain ⟨e, hdec⟩ := exists_decode_error h
  simp only [withPriorCom, hw, hdec]

/-- Settles O39: with the inputs admitted the words are judged, the descriptor word first. -/
theorem reservedWordRaised : Obligations.ReservedWordRaised := by
  intro s i rest f amp hops hfault hslot hf ha hreal
  have hstep : step s = judgeWords (setOps s rest) i f amp := by
    rw [step_advance_eq_withInputs hops hfault hslot]
    exact withInputs_driven hf ha (fun h => (hreal h).1) (fun h => (hreal h).2)
  rw [hstep]
  constructor
  · intro w hw hreserved
    obtain ⟨e, hdec⟩ := exists_decode_error hreserved
    have hword : descriptorWord (setOps s rest) i = some w := (descriptorWord_eq_wordAt s i).trans hw
    rw [judgeWords_of_error hword hdec, raise_setOps_of_none hfault]
    rfl
  · intro w v hv hlegal hw hreserved
    obtain ⟨instr, hdec⟩ := (legalWord_iff v).mp hlegal
    have hword : descriptorWord (setOps s rest) i = some v := (descriptorWord_eq_wordAt s i).trans hv
    have hprior : priorWord (setOps s rest) i = some w := (priorWord_eq_wordAt s i).trans hw
    simp only [judgeWords_of_ok hword hdec]
    rw [withPriorCom_reserved hprior hreserved, raise_setOps_of_none hfault]
    rfl

/-! ### Values that are no real numbers -/

theorem not_isReal_of_notFinite (h : NotFinite v) : v.isReal = false := by
  rcases h with rfl | ⟨b, rfl⟩
  · rfl
  · rfl

theorem presentable_of_notFinite (h : NotFinite v) (k : NumKind) : presentable k v = true := by
  rcases h with rfl | ⟨b, rfl⟩
  · rfl
  · rfl

/-- The frequency is checked first, whatever the amplitude is (60_exceptions.md R129). -/
theorem withInputs_notFinite_freq {body : Value → Value → StepResult} (hnum : s.num = .exactReal)
    (hf : s.freqIn[i] = some f) (ha : s.ampIn[i] = some amp) (h : NotFinite f) :
    withInputs s i body = .next (raise s (.nonFinite (.freqIn i) f)) := by
  simp only [withInputs, hf, ha, hnum, not_isReal_of_notFinite h, and_self, if_true]

theorem withInputs_notFinite_amp {body : Value → Value → StepResult} (hnum : s.num = .exactReal)
    (hf : s.freqIn[i] = some f) (ha : s.ampIn[i] = some amp) (hreal : f.isReal = true) (h : NotFinite amp) :
    withInputs s i body = .next (raise s (.nonFinite (.ampIn i) amp)) := by
  simp [withInputs, hf, ha, hnum, hreal, not_isReal_of_notFinite h]

/-- Settles O40: the inputs are checked before the words, the frequency first. -/
theorem nonFiniteInputRaised : Obligations.NonFiniteInputRaised := by
  intro s i rest f amp hops hfault hslot hnum hf ha
  rw [step_advance_eq_withInputs hops hfault hslot]
  constructor
  · intro h
    rw [withInputs_notFinite_freq (s := setOps s rest) hnum hf ha h, raise_setOps_of_none hfault]
  · intro hreal h
    rw [withInputs_notFinite_amp (s := setOps s rest) hnum hf ha hreal h, raise_setOps_of_none hfault]

/-- A level that is infinite or not a number can be presented, but is no real number. -/
theorem opWrfbl_notFinite (hnum : s.num = .exactReal) (h : NotFinite v) :
    opWrfbl v s = .next (raise s (.nonFinite .wrfbl v)) := by
  simp [opWrfbl, hnum, not_isReal_of_notFinite h, presentable_of_notFinite h]

/-- Settles O47: the raise of `WRFBL`, where no fault is recorded. -/
theorem nonFiniteLevelRaised : Obligations.NonFiniteLevelRaised := by
  intro s rest v hops hnum hfault h
  rw [step_cons hops, performOp, opWrfbl_notFinite (s := setOps s rest) hnum h, raise_setOps_of_none hfault]

/-! ### Well-formed images -/

/-- The record of `s` is no `F_ROM_RESERVED`. -/
def NoReservedRecord (s : State) : Prop := ∀ row k w, s.fault ≠ .romReserved row k w

/-- No next state that the step answers records `F_ROM_RESERVED`. -/
def AnswersNoReserved (a : StepResult) : Prop := ∀ t, a = .next t → NoReservedRecord t

@[simp] theorem answersNoReserved_next : AnswersNoReserved (.next t) ↔ NoReservedRecord t := by
  simp [AnswersNoReserved]

@[simp] theorem answersNoReserved_fault (e : Fault) : AnswersNoReserved (.fault e) := by
  simp [AnswersNoReserved]

@[simp] theorem answersNoReserved_refused (e : Refusal) : AnswersNoReserved (.refused e) := by
  simp [AnswersNoReserved]

theorem noReservedRecord_congr (hs : NoReservedRecord s) (h : t.fault = s.fault) : NoReservedRecord t :=
  fun row k w => h ▸ hs row k w

theorem raise_noReservedRecord (hs : NoReservedRecord s) (hr : ∀ row k w, r ≠ .romReserved row k w) :
    NoReservedRecord (raise s r) := by
  unfold raise
  split
  · exact hr
  · exact hs

theorem performSlot_fault (s : State) (i : OpIndex) (f amp : Value) (com : BitVec 3) (instr : Instr) (route : Wires → Value) :
    (performSlot s i f amp com instr route).fault = s.fault := by
  simp [performSlot]

theorem withInputs_answersNoReserved {body : Value → Value → StepResult} (hs : NoReservedRecord s)
    (hbody : ∀ f amp, AnswersNoReserved (body f amp)) : AnswersNoReserved (withInputs s i body) := by
  rcases withInputs_cases s i body with ⟨f, amp, -, -, -, -, e⟩ | ⟨p, v, e⟩ | e
  · rw [e]
    exact hbody f amp
  · rw [e, answersNoReserved_next]
    exact raise_noReservedRecord hs (by simp)
  · simp [e]

/-- On a well-formed image both words pass and the slot takes effect (20_memory.md R32). -/
theorem judgeWords_wellFormedImage (hrom : wellFormedImage s.rom = true) (i : OpIndex) (f amp : Value) :
    ∃ prior instr : Instr, judgeWords s i f amp = .next (performSlot s i f amp prior.com instr (routeOf instr)) := by
  obtain ⟨w, instr, hw, hdec⟩ := wellFormedImage_lookup hrom (romAddress_lt (fetchRow s i) i.val)
  obtain ⟨w', prior, hw', hdec'⟩ := wellFormedImage_lookup hrom (romAddress_lt (fetchRow s i) ((i.val : ℤ) - 1))
  have hprior : priorWord s i = some w' := hw'
  refine ⟨prior, instr, ?_⟩
  simp only [judgeWords_of_ok (s := s) (i := i) hw hdec, withPriorCom, hprior, hdec']

theorem opAdvance_answersNoReserved (hrom : wellFormedImage s.rom = true) (hs : NoReservedRecord s) (n : ℤ) :
    AnswersNoReserved (opAdvance n s) := by
  by_cases hfault : s.fault = .none
  · by_cases hn : n < 0 ∨ 5 < n ∨ n ≠ (s.slot.toNat : ℤ)
    · rw [opAdvance_wrongIndex hfault hn, answersNoReserved_next]
      exact raise_noReservedRecord hs (by simp)
    · have hn' : n = (s.slot.toNat : ℤ) := by omega
      obtain ⟨i, hslot, rfl⟩ : ∃ i : OpIndex, s.slot.toNat = i.val ∧ n = i.val :=
        ⟨⟨s.slot.toNat, by omega⟩, rfl, hn'⟩
      rw [opAdvance_atSlot hfault hslot, fetchAndExec_eq_withInputs hfault hslot]
      refine withInputs_answersNoReserved hs fun f amp => ?_
      obtain ⟨prior, instr, e⟩ := judgeWords_wellFormedImage hrom i f amp
      rw [e, answersNoReserved_next]
      exact noReservedRecord_congr hs (performSlot_fault s i f amp prior.com instr _)
  · rwa [opAdvance, if_neg hfault, answersNoReserved_next]

/-- Over a well-formed image no move of an agent records `F_ROM_RESERVED`: the raises of the others have other names. -/
theorem performOp_answersNoReserved (hrom : wellFormedImage s.rom = true) (hs : NoReservedRecord s) (op : HostOp) :
    AnswersNoReserved (performOp op s) := by
  cases op with
  | drive i fr am =>
    rw [performOp, opDrive]
    split
    · simp
    · simp
    · exact answersNoReserved_next.mpr hs
  | advance n => exact opAdvance_answersNoReserved hrom hs n
  | rdout =>
    rw [performOp, opRdout]
    split
    · exact answersNoReserved_next.mpr hs
    · exact answersNoReserved_next.mpr hs
  | wralg v =>
    rw [performOp, opWralg]
    split
    · exact answersNoReserved_next.mpr hs
    · exact answersNoReserved_next.mpr (raise_noReservedRecord hs (by simp))
  | wrfbl v =>
    rw [performOp, opWrfbl]
    split
    · exact answersNoReserved_next.mpr hs
    · split
      · exact answersNoReserved_next.mpr (raise_noReservedRecord hs (by simp))
      · simp
  | reset =>
    rw [performOp, opReset]
    split
    · simp
    · simp [NoReservedRecord]

/-- Settles O6: a step makes one move, and over a well-formed image no move records a reserved word. -/
theorem wellFormedImageNeverReserved : Obligations.WellFormedImageNeverReserved := by
  intro s t hrom h hs
  obtain ⟨op, rest, -, hop⟩ := step_next h
  exact performOp_answersNoReserved (s := setOps s rest) hrom hs op t hop

/-! ### While a fault is recorded -/

theorem opAdvance_faulted (hfault : s.fault ≠ .none) (n : ℤ) : opAdvance n s = .next s := if_neg hfault

theorem opRdout_faulted (hfault : s.fault ≠ .none) : opRdout s = .next { s with answers := .refused :: s.answers } :=
  if_neg fun h => hfault h.1

/-- A drive that is not refused sets the two ports of its index. -/
theorem opDrive_next {fr am : Option Value} (h : opDrive i fr am s = .next t) :
    t = { s with freqIn := s.freqIn.set i fr, ampIn := s.ampIn.set i am } := by
  unfold opDrive at h
  split at h <;> cases h
  rfl

/-- No move but reset changes the record: the first one stands (60_exceptions.md R125, R131). -/
theorem performOp_fault_of_faulted {op : HostOp} (hfault : s.fault ≠ .none) (hreset : op ≠ .reset)
    (h : performOp op s = .next t) : t.fault = s.fault := by
  rcases performOp_next h with rfl | ⟨hnone, -⟩ | ⟨i, f, amp, prior, instr, hen, -⟩ | ⟨i, fr, am, -, -, -, rfl⟩ |
    ⟨a, -, rfl⟩ | ⟨v, -, -, -, rfl⟩ | ⟨v, -, -, rfl⟩ | ⟨e, -⟩
  · rfl
  · exact absurd hnone hfault
  · exact absurd hen.noFault hfault
  · rfl
  · rfl
  · rfl
  · rfl
  · exact absurd e hreset

/-- While a fault is recorded `ADVANCE` is a move like the others, and only reset writes engine-owned state. -/
theorem performOp_sameEngineState_of_faulted {op : HostOp} (hfault : s.fault ≠ .none) (hreset : op ≠ .reset)
    (h : performOp op s = .next t) : SameEngineState s t := by
  by_cases hadvance : ∃ n, op = .advance n
  · obtain ⟨n, rfl⟩ := hadvance
    rw [performOp, opAdvance_faulted hfault] at h
    cases h
    constructor <;> rfl
  · exact performOp_sameEngineState h hreset fun n e => hadvance ⟨n, e⟩

/-- Settles O41: move by move; a raise finds the record taken. -/
theorem recordedFaultIsSticky : Obligations.RecordedFaultIsSticky := by
  intro s rest hfault
  have hfault' : (setOps s rest).fault ≠ .none := hfault
  refine ⟨?advance, ?rdout, ?wralg, ?wralgOutOfRange, ?wrfbl, ?wrfblNotFinite, ?drive, ?frame⟩
  case advance =>
    intro n hops
    rw [step_cons hops]
    exact opAdvance_faulted hfault' n
  case rdout =>
    intro hops
    rw [step_cons hops]
    exact opRdout_faulted hfault'
  case wralg =>
    intro v hlo hhi hops
    rw [step_cons hops]
    exact opWralg_inRange hlo hhi _
  case wralgOutOfRange =>
    intro v hv hops
    rw [step_cons hops, performOp, opWralg_outOfRange hv, raise_of_ne_none _ _ hfault', setOps_eq]
  case wrfbl =>
    intro v hv hops
    exact wrfblWritesPendingLevel s rest v hops hv
  case wrfblNotFinite =>
    intro v hnum hv hops
    rw [step_cons hops, performOp, opWrfbl_notFinite (s := setOps s rest) hnum hv, raise_of_ne_none _ _ hfault', setOps_eq]
  case drive =>
    intro i fr am t hops h
    rw [step_cons hops] at h
    exact opDrive_next h
  case frame =>
    intro op t hreset hops h
    rw [step_cons hops] at h
    obtain ⟨hphase, hmod, hfb0, hfb1, hmem, hid, hlevel, hslot, hvalid⟩ :=
      performOp_sameEngineState_of_faulted (s := setOps s rest) hfault' hreset h
    have hrecord : t.fault = s.fault := performOp_fault_of_faulted (s := setOps s rest) hfault' hreset h
    exact ⟨hrecord, hphase, hmod, hfb0, hfb1, hmem, hid, hlevel, hslot, hvalid⟩

end Sys2Proof.Proofs

/-! The statement of 70_reset_and_hazards.md: reset as the exit from a faulted state. -/

namespace Sys2Proof.Proofs

open Sys2Proof Sys2Proof.Machine Sys2Proof.Laws

theorem opReset_faulted {s : State} (hfault : s.fault ≠ .none) : opReset s = .next (resetEngine s) := if_neg hfault

/-- Resetting a machine whose list of moves was replaced gives the reset state of its configuration, with the new list and the
answers given. -/
theorem resetEngine_setOps (s : State) (l : List HostOp) :
    resetEngine (setOps s l) = { State.powerUp s.num s.mixMode s.rom with ops := l, answers := s.answers } := rfl

/-- Settles O43: the record of a fault enables the reset, which runs on the state with the request already taken from the list. -/
theorem resetLeavesFaultedState : Obligations.ResetLeavesFaultedState := by
  intro s rest hfault hops
  rw [step_cons hops, performOp, opReset_faulted (s := setOps s rest) hfault, resetEngine_setOps]

end Sys2Proof.Proofs
